-- ==== Sys2Proof/Word.lean ====
section
/-! DEFINITION. The word types of GB-CORE (00_scope.md R7: every value is unsigned; R71: a command is 40 bits). -/

namespace Sys2Proof

/-- `u8` of R7. -/
abbrev Byte := BitVec 8

/-- `u16` of R7: a register pair, PC, SP, a byte address, a 16-bit datum. -/
abbrev Half := BitVec 16

/-- One command word (R71). -/
abbrev CmdWord := BitVec 40

end Sys2Proof
end

