-- ==== Sys2Proof/Config.lean ====
section
/-! DEFINITION. The shape of an opcode record and the FREE VALUES of the model: what the spec leaves without a value.
Each free value is an opaque constant: nothing in Lean can evaluate it, so a claim holds whatever it is. -/

namespace Sys2Proof

/-- The opcode record of R107: "immutable tuple {mnemonic: text, length: 1–3 bytes, baseCycles, longCycles(optional)}".
The bound on `length` is `OpcodeRecord.wf` (WellFormed.lean). -/
structure OpcodeRecord where
  mnemonic   : String
  length     : Nat
  baseCycles : Nat
  longCycles : Option Nat
  deriving DecidableEq, Repr

/-- `ROM_FILL` (R6, R64, D23): the ROM byte at an image offset beyond the image's end, for the CONSTRUCT that a draw number
names. FREE VALUE, log 3 (DESIGN CHOICE of form, safe). -/
opaque Config.romFill : Nat → Nat → Byte

/-- The mnemonic text of a used opcode. FREE VALUE, log 12: no source holds the dataset (R111, D32). -/
opaque Config.metaMnemonic : Byte → String

/-- One less than the length of a used opcode, so the length is 1, 2 or 3 (R107). FREE VALUE, log 12. -/
opaque Config.metaLengthLessOne : Byte → Fin 3

/-- The base cycle cost of a used opcode. FREE VALUE, log 12. -/
opaque Config.metaBaseCycles : Byte → Nat

/-- What a conditional opcode costs beyond its base cost when its condition holds, so longCycles ≥ baseCycles (R109).
FREE VALUE, log 12. -/
opaque Config.metaTakenExtra : Byte → Nat

/-- The mnemonic text of `SENTINEL_RECORD` (R110). FREE VALUE, log 12. -/
opaque Config.sentinelMnemonic : String

/-- One less than the length that `SENTINEL_RECORD` carries (R107, R110). FREE VALUE, log 12. -/
opaque Config.sentinelLengthLessOne : Fin 3

/-- The base cycle cost that `SENTINEL_RECORD` carries (R110). FREE VALUE, log 12. -/
opaque Config.sentinelBaseCycles : Nat

end Sys2Proof
end

