-- ==== Sys2Proof/Syntax.lean ====
section
/-! DEFINITION. The commands of GB-CORE: one constructor per row of spec/opcode_table.json (R73). Every operand has the
type of the field it stands for (R77-R80), so each term is a command the spec has. -/

namespace Sys2Proof

/-- The four register pairs (R13, R77). -/
inductive Pair where
  | af | bc | de | hl
  deriving DecidableEq, Repr

/-- The two lanes of a pair: high, bits 15:8, and low, bits 7:0 (R14, R78). -/
inductive Lane where
  | hi | lo
  deriving DecidableEq, Repr

/-- The sixteen commands (R73). -/
inductive Instr where
  /-- READ8 (R84). -/
  | read8 (a : Half)
  /-- READ16 (R85). -/
  | read16 (a : Half)
  /-- WRITE8 (R86). -/
  | write8 (a : Half) (b : Byte)
  /-- WRITE16 (R87). -/
  | write16 (a : Half) (v : Half)
  /-- RESET (R102). -/
  | reset
  /-- READ_PAIR (R88). -/
  | readPair (p : Pair)
  /-- WRITE_PAIR (R89). -/
  | writePair (p : Pair) (v : Half)
  /-- READ_BYTE (R90). -/
  | readByte (p : Pair) (l : Lane)
  /-- WRITE_BYTE (R91). -/
  | writeByte (p : Pair) (l : Lane) (b : Byte)
  /-- READ_FLAGS (R92). -/
  | readFlags
  /-- WRITE_FLAGS (R93). -/
  | writeFlags (f : Byte)
  /-- READ_PC (R94). -/
  | readPc
  /-- WRITE_PC (R95). -/
  | writePc (v : Half)
  /-- READ_SP (R96). -/
  | readSp
  /-- WRITE_SP (R97). -/
  | writeSp (v : Half)
  /-- LOOKUP (R108). -/
  | lookup (op : Byte)
  deriving DecidableEq, Repr

end Sys2Proof
end

