-- ==== Sys2Proof/WellFormed.lean ====
section
/-! DEFINITION. What the spec calls well formed: a command word (R74's mask and match columns) and an opcode record (R107).
A term of `Instr` needs no check of its own: its operand types admit exactly the fields' values. -/

namespace Sys2Proof

/-- One row of R74's table: the bits fixed by the row and their values. -/
structure CmdRow where
  pattern : CmdWord
  mask    : CmdWord
  deriving DecidableEq, Repr

/-- R74's table, in the order of OP. Bits that a command does not use are in the mask and 0 in the pattern. -/
def cmdRows : List CmdRow :=
  [ ⟨0x0000000000#40, 0xFF0000FFFF#40⟩,   -- READ8
    ⟨0x1000000000#40, 0xFF0000FFFF#40⟩,   -- READ16
    ⟨0x2000000000#40, 0xFF0000FF00#40⟩,   -- WRITE8
    ⟨0x3000000000#40, 0xFF00000000#40⟩ ]  -- WRITE16
  ++
  [ ⟨0x4000000000#40, 0xFFFFFFFFFF#40⟩,   -- RESET
    ⟨0x5000000000#40, 0xF3FFFFFFFF#40⟩,   -- READ_PAIR
    ⟨0x6000000000#40, 0xF3FFFF0000#40⟩,   -- WRITE_PAIR
    ⟨0x7000000000#40, 0xF1FFFFFFFF#40⟩,   -- READ_BYTE
    ⟨0x8000000000#40, 0xF1FFFFFF00#40⟩,   -- WRITE_BYTE
    ⟨0x9000000000#40, 0xFFFFFFFFFF#40⟩,   -- READ_FLAGS
    ⟨0xA000000000#40, 0xFFFFFFFF00#40⟩ ]  -- WRITE_FLAGS
  ++
  [ ⟨0xB000000000#40, 0xFFFFFFFFFF#40⟩,   -- READ_PC
    ⟨0xC000000000#40, 0xFFFFFF0000#40⟩,   -- WRITE_PC
    ⟨0xD000000000#40, 0xFFFFFFFFFF#40⟩,   -- READ_SP
    ⟨0xE000000000#40, 0xFFFFFF0000#40⟩,   -- WRITE_SP
    ⟨0xF000000000#40, 0xFFFFFFFF00#40⟩ ]  -- LOOKUP

/-- `(w & mask) == match` of R74. -/
def CmdRow.fits (r : CmdRow) (w : CmdWord) : Bool := w &&& r.mask == r.pattern

/-- A well-formed command word: some row of R74 fits it. -/
def wordWf (w : CmdWord) : Bool := cmdRows.any (·.fits w)

/-- R107: the length of an opcode record is 1, 2 or 3 bytes. -/
def OpcodeRecord.wf (r : OpcodeRecord) : Bool := 1 ≤ r.length && r.length ≤ 3

end Sys2Proof
end

