-- ==== Sys2Proof/Decode.lean ====
section
/-! DEFINITION. The decoder of command words, total on all 40-bit words and refusing by name, and after it the encoder
(30_encoding.md). The decoder checks R74's column "bits required zero" field by field; WellFormed.lean holds the same table
as mask and match, so that the two readings can be compared. -/

namespace Sys2Proof

/-- Why a word spells no command (R75). -/
inductive DecodeReject where
  | illegalCommand
  deriving DecidableEq, Repr

/-- R77: 0 = AF, 1 = BC, 2 = DE, 3 = HL. -/
def pairOfField (p : BitVec 2) : Pair :=
  if p = 0#2 then .af else if p = 1#2 then .bc else if p = 2#2 then .de else .hl

/-- R78: 1 = high, 0 = low. -/
def laneOfField (l : BitVec 1) : Lane := if l = 1#1 then .hi else .lo

/-- The fields of a word (R72). -/
def fieldOP (w : CmdWord) : BitVec 4 := w.extractLsb' 36 4
def fieldP (w : CmdWord) : BitVec 2 := w.extractLsb' 34 2
def fieldL (w : CmdWord) : BitVec 1 := w.extractLsb' 33 1
def fieldR (w : CmdWord) : BitVec 1 := w.extractLsb' 32 1
def fieldA (w : CmdWord) : BitVec 16 := w.extractLsb' 16 16
def fieldD (w : CmdWord) : BitVec 16 := w.extractLsb' 0 16
/-- `D[15:8]`, required zero for an 8-bit operand. -/
def fieldDHigh (w : CmdWord) : BitVec 8 := w.extractLsb' 8 8
/-- `D[7:0]`, the 8-bit operand. -/
def fieldDLow (w : CmdWord) : BitVec 8 := w.extractLsb' 0 8

/-- The command `i`, if the fields it does not use are zero; else the word is refused (R74, R75). -/
def whenZero (unused : Bool) (i : Instr) : Except DecodeReject Instr :=
  if unused then .ok i else .error .illegalCommand

/-- The decoder (R73, R74): OP selects the row, and each row names the fields that must be zero. -/
def decode (w : CmdWord) : Except DecodeReject Instr :=
  let p := fieldP w
  let l := fieldL w
  let r := fieldR w
  let a := fieldA w
  let d := fieldD w
  let dh := fieldDHigh w
  let dl := fieldDLow w
  match (fieldOP w).toNat with
  | 0x0 => whenZero (p == 0 && l == 0 && r == 0 && d == 0) (.read8 a)
  | 0x1 => whenZero (p == 0 && l == 0 && r == 0 && d == 0) (.read16 a)
  | 0x2 => whenZero (p == 0 && l == 0 && r == 0 && dh == 0) (.write8 a dl)
  | 0x3 => whenZero (p == 0 && l == 0 && r == 0) (.write16 a d)
  | 0x4 => whenZero (p == 0 && l == 0 && r == 0 && a == 0 && d == 0) .reset
  | 0x5 => whenZero (l == 0 && r == 0 && a == 0 && d == 0) (.readPair (pairOfField p))
  | 0x6 => whenZero (l == 0 && r == 0 && a == 0) (.writePair (pairOfField p) d)
  | 0x7 => whenZero (r == 0 && a == 0 && d == 0) (.readByte (pairOfField p) (laneOfField l))
  | 0x8 => whenZero (r == 0 && a == 0 && dh == 0) (.writeByte (pairOfField p) (laneOfField l) dl)
  | 0x9 => whenZero (p == 0 && l == 0 && r == 0 && a == 0 && d == 0) .readFlags
  | 0xA => whenZero (p == 0 && l == 0 && r == 0 && a == 0 && dh == 0) (.writeFlags dl)
  | 0xB => whenZero (p == 0 && l == 0 && r == 0 && a == 0 && d == 0) .readPc
  | 0xC => whenZero (p == 0 && l == 0 && r == 0 && a == 0) (.writePc d)
  | 0xD => whenZero (p == 0 && l == 0 && r == 0 && a == 0 && d == 0) .readSp
  | 0xE => whenZero (p == 0 && l == 0 && r == 0 && a == 0) (.writeSp d)
  | 0xF => whenZero (p == 0 && l == 0 && r == 0 && a == 0 && dh == 0) (.lookup dl)
  | _   => .error .illegalCommand

/-- R77 read backwards. -/
def fieldOfPair : Pair → BitVec 2
  | .af => 0#2
  | .bc => 1#2
  | .de => 2#2
  | .hl => 3#2

/-- R78 read backwards. -/
def fieldOfLane : Lane → BitVec 1
  | .hi => 1#1
  | .lo => 0#1

/-- A word from its fields: OP[39:36] P[35:34] L[33] R[32] A[31:16] D[15:0], the reserved bit R zero (R72). -/
def packWord (op : BitVec 4) (p : BitVec 2) (l : BitVec 1) (a d : BitVec 16) : CmdWord :=
  op ++ p ++ l ++ 0#1 ++ a ++ d

/-- An 8-bit operand in D: `D[15:8]` zero (R72, R80). -/
def byteInD (b : Byte) : BitVec 16 := 0#8 ++ b

/-- The word of a command (R72-R74). -/
def encode : Instr → CmdWord
  | .read8 a         => packWord 0x0#4 0#2 0#1 a 0#16
  | .read16 a        => packWord 0x1#4 0#2 0#1 a 0#16
  | .write8 a b      => packWord 0x2#4 0#2 0#1 a (byteInD b)
  | .write16 a v     => packWord 0x3#4 0#2 0#1 a v
  | .reset           => packWord 0x4#4 0#2 0#1 0#16 0#16
  | .readPair p      => packWord 0x5#4 (fieldOfPair p) 0#1 0#16 0#16
  | .writePair p v   => packWord 0x6#4 (fieldOfPair p) 0#1 0#16 v
  | .readByte p l    => packWord 0x7#4 (fieldOfPair p) (fieldOfLane l) 0#16 0#16
  | .writeByte p l b => packWord 0x8#4 (fieldOfPair p) (fieldOfLane l) 0#16 (byteInD b)
  | .readFlags       => packWord 0x9#4 0#2 0#1 0#16 0#16
  | .writeFlags f    => packWord 0xA#4 0#2 0#1 0#16 (byteInD f)
  | .readPc          => packWord 0xB#4 0#2 0#1 0#16 0#16
  | .writePc v       => packWord 0xC#4 0#2 0#1 0#16 v
  | .readSp          => packWord 0xD#4 0#2 0#1 0#16 0#16
  | .writeSp v       => packWord 0xE#4 0#2 0#1 0#16 v
  | .lookup op       => packWord 0xF#4 0#2 0#1 0#16 (byteInD op)

/-- The 40-bit word whose low `nbits` bits are those of `w` and whose other bits are 0, numbered as
spec/opcode_table.json numbers them: bit 0 is the least significant bit of the word (R7, R71). -/
def tableWord (nbits w : Nat) : CmdWord := BitVec.ofNat 40 (w % 2 ^ nbits)

/-- What the decoder reads from a row's word; none where it refuses. -/
def decodeTableWord (nbits w : Nat) : Option Instr := (decode (tableWord nbits w)).toOption

end Sys2Proof
end

