-- ==== Sys2Proof/Machine/Bytes.lean ====
section
/-! DEFINITION. Splitting and joining bytes: lanes of a pair (R14, R15), little-endian halves (R54), 8-bit results in a
16-bit response (R81). -/

namespace Sys2Proof.Machine

/-- `v[15:8]`. -/
def highByte (v : Half) : Byte := v.extractLsb' 8 8

/-- `v[7:0]`. -/
def lowByte (v : Half) : Byte := v.extractLsb' 0 8

/-- `(zext_16(hi) << 8) | zext_16(lo)` (R15, R56). -/
def joinBytes (hi lo : Byte) : Half := (hi.setWidth 16 <<< 8) ||| lo.setWidth 16

/-- `zext_16(b)` (R7, R81). -/
def zextByte (b : Byte) : Half := b.setWidth 16

end Sys2Proof.Machine
end

