-- ==== Sys2Proof/Machine/Params.lean ====
section
/-! DEFINITION. The fixed parameters of this hardware (R6), and the opcode metadata table, built from the free values of
Config.lean under the limits the spec sets. Values marked PRESUMED are the spec's own, which it takes from general
knowledge of the DMG and marks so. -/

namespace Sys2Proof.Machine

/-- `FLAG_WRITE_MASK` (R19, D9): bits 2:0 of F are forced to zero, bit 3 is stored. Log 6. -/
def flagWriteMask : Byte := 0xF8#8

/-- `RESET_PC` (R22). -/
def resetPc : Half := 0x0000#16

/-- `RESET_SP` (R23). -/
def resetSp : Half := 0xFFFE#16

/-- `POST_BOOT_REGS` (R24, D10). PRESUMED, log 7. -/
def postBootRegs : Pair → Half
  | .af => 0x01B0#16
  | .bc => 0x0013#16
  | .de => 0x00D8#16
  | .hl => 0x014D#16

/-- Rows 1 to 15 of `RESET_IO_TABLE` (R29, D11). PRESUMED, log 7. -/
def resetIoTableLow : List (Half × Byte) :=
  [ (0xFF05#16, 0x00#8), (0xFF06#16, 0x00#8), (0xFF07#16, 0x00#8), (0xFF10#16, 0x80#8), (0xFF11#16, 0xBF#8),
    (0xFF12#16, 0xF3#8), (0xFF14#16, 0xBF#8), (0xFF16#16, 0x3F#8), (0xFF17#16, 0x00#8), (0xFF19#16, 0xBF#8),
    (0xFF1A#16, 0x7F#8), (0xFF1B#16, 0xFF#8), (0xFF1C#16, 0x9F#8), (0xFF1E#16, 0xBF#8), (0xFF20#16, 0xFF#8) ]

/-- Rows 16 to 31 of `RESET_IO_TABLE`, the latch last (R29, R30). PRESUMED, log 7. -/
def resetIoTableHigh : List (Half × Byte) :=
  [ (0xFF21#16, 0x00#8), (0xFF22#16, 0x00#8), (0xFF23#16, 0xBF#8), (0xFF24#16, 0x77#8), (0xFF25#16, 0xF3#8),
    (0xFF26#16, 0xF1#8), (0xFF40#16, 0x91#8), (0xFF42#16, 0x00#8), (0xFF43#16, 0x00#8), (0xFF45#16, 0x00#8),
    (0xFF47#16, 0xFC#8), (0xFF48#16, 0xFF#8), (0xFF49#16, 0xFF#8), (0xFF4A#16, 0x00#8), (0xFF4B#16, 0x00#8),
    (0xFFFF#16, 0x00#8) ]

/-- `RESET_IO_TABLE`, in replay order (R29). -/
def resetIoTable : List (Half × Byte) := resetIoTableLow ++ resetIoTableHigh

/-- The value the table gives an address, if it names the address. -/
def resetIoValue (k : Nat) : Option Byte := (resetIoTable.find? (fun e => e.1.toNat == k)).map (·.2)

/-- `IO_READ_OR_MASK` (R48, D12): no bit is forced to 1. Log 8. -/
def ioReadOrMask (_off : Nat) : Byte := 0x00#8

/-- `ROM_SIZE_OFFSET` (R99). -/
def romSizeOffset : Nat := 0x148

/-- `CART_TYPE_OFFSET` (R99, D22). PRESUMED, log 11. -/
def cartTypeOffset : Nat := 0x147

/-- THE definition of what a byte reads as that no cell of memory lists, by its home address: the reset contents (R130).
`some v`: the fixed byte `v`. `none`: a ROM byte that no cartridge image supplies, which is a draw (R64, log 3). -/
def unlistedByte (k : Nat) : Option Byte :=
  if k < 0x8000 then none else some ((resetIoValue k).getD 0x00#8)

/-- The opcodes of the conditional jumps, calls and returns (R109, R112). PRESUMED, log 12. -/
def conditionalOpcodes : List Byte :=
  [ 0x20#8, 0x28#8, 0x30#8, 0x38#8, 0xC2#8, 0xCA#8, 0xD2#8, 0xDA#8,
    0xC4#8, 0xCC#8, 0xD4#8, 0xDC#8, 0xC0#8, 0xC8#8, 0xD0#8, 0xD8#8 ]

/-- The eleven unused opcodes (R112). PRESUMED, log 12. -/
def unusedOpcodes : List Byte :=
  [ 0xD3#8, 0xDB#8, 0xDD#8, 0xE3#8, 0xE4#8, 0xEB#8, 0xEC#8, 0xED#8, 0xF4#8, 0xFC#8, 0xFD#8 ]

/-- `SENTINEL_RECORD` (R110): free but for R107 and R109 (an unused opcode is no conditional one). -/
def sentinelRecord : OpcodeRecord :=
  { mnemonic := Config.sentinelMnemonic
    length := Config.sentinelLengthLessOne.val + 1
    baseCycles := Config.sentinelBaseCycles
    longCycles := none }

/-- `OPCODE_META` (R108-R111). Its content is in no source; this is the general form of a table that meets R107, R109 and
R110 for the opcode sets of R112, with every other part free. Log 12. -/
def opcodeMeta (op : Byte) : OpcodeRecord :=
  if op ∈ unusedOpcodes then sentinelRecord
  else
    { mnemonic := Config.metaMnemonic op
      length := (Config.metaLengthLessOne op).val + 1
      baseCycles := Config.metaBaseCycles op
      longCycles :=
        if op ∈ conditionalOpcodes then some (Config.metaBaseCycles op + Config.metaTakenExtra op) else none }

/-- One row of R112's check: the opcodes, and the length and cycle counts it gives them. -/
def r112Rows : List (List Byte × Nat × Nat × Nat) :=
  [ ([0x20#8, 0x28#8, 0x30#8, 0x38#8], 2, 8, 12),
    ([0xC2#8, 0xCA#8, 0xD2#8, 0xDA#8], 3, 12, 16),
    ([0xC4#8, 0xCC#8, 0xD4#8, 0xDC#8], 3, 12, 24),
    ([0xC0#8, 0xC8#8, 0xD0#8, 0xD8#8], 1, 8, 20) ]

/-- The 256 opcode bytes. -/
def allOpcodes : List Byte := (List.range 256).map (BitVec.ofNat 8)

/-- R112's table: each listed opcode has the length and the cycle counts of its row. -/
def r112CostsHold (table : Byte → OpcodeRecord) : Bool :=
  r112Rows.all fun row => row.1.all fun op =>
    (table op).length == row.2.1 && (table op).baseCycles == row.2.2.1 && (table op).longCycles == some row.2.2.2

/-- R112: the sixteen conditional opcodes "are exactly the records with `longCycles` defined". -/
def r112ConditionalsHold (table : Byte → OpcodeRecord) : Bool :=
  allOpcodes.all fun op => (table op).longCycles.isSome == conditionalOpcodes.contains op

/-- R112: the unused opcodes "are the eleven bytes": those records, and no other, are the supplied `SENTINEL_RECORD`. -/
def r112UnusedHold (table : Byte → OpcodeRecord) (sentinel : OpcodeRecord) : Bool :=
  allOpcodes.all fun op => (table op == sentinel) == unusedOpcodes.contains op

/-- R112's check "on a supplied `OPCODE_META`, and not as its content", with the `SENTINEL_RECORD` supplied beside it (D32).
PRESUMED, log 12; no meaning uses it. -/
def passesR112 (table : Byte → OpcodeRecord) (sentinel : OpcodeRecord) : Bool :=
  r112CostsHold table && r112ConditionalsHold table && r112UnusedHold table sentinel

end Sys2Proof.Machine
end

