-- ==== Sys2Proof/Machine/State.lean ====
section
/-! DEFINITION. The state of the block (R12), the reasons a step can stop, and the state after reset (R130). -/

namespace Sys2Proof.Machine

/-- R32. `Loaded` exists only inside CONSTRUCT and is never observed. -/
inductive Life where
  | unloaded | ready
  deriving DecidableEq, Repr

/-- The fatal kinds (R115). -/
inductive FatalKind where
  | cartOpenFailed | resetNoController | ie16Access
  deriving DecidableEq, Repr

/-- The severities of a diagnostic event (R116, R119, R120). -/
inductive Severity where
  | info | warning | fatal
  deriving DecidableEq, Repr

/-- The kinds of a diagnostic event; message texts are not modelled (R119, R120, D27). -/
inductive EventKind where
  | romSizeMismatch
  | unimplementedRegion
  | resetting
  | finishedResetting
  | fatal (k : FatalKind)
  deriving DecidableEq, Repr

/-- The banking variants (R2, R34): only NoMBC is specified. -/
inductive Variant where
  | noMBC
  deriving DecidableEq, Repr

/-- The twelve regions of the address space (R38). -/
inductive Region where
  | rom0 | romx | vram | eram | wram0 | wramx | echo | oam | unusable | io | hram | ie
  deriving DecidableEq, Repr

/-- The ten backing stores (R26). -/
inductive Store where
  | rom0 | romx | vram | eram | wram0 | wramx | oam | io | hram | ie
  deriving DecidableEq, Repr

/-- What the requester gets back for a command (R81). -/
inductive Response where
  | value (v : Half)
  | record (r : OpcodeRecord)
  | done
  | fault (k : FatalKind)
  deriving DecidableEq, Repr

/-- The input of CONSTRUCT (R98): the raw bytes of the cartridge file, or the failure to open it. -/
inductive CartInput where
  | openFailed
  | image (bytes : List Byte)
  deriving DecidableEq, Repr

/-- What the host can send to the block (R137). -/
inductive HostOp where
  | construct (input : CartInput)
  | command (w : CmdWord)
  deriving DecidableEq, Repr

/-- A register pair as its two lanes (R14). -/
structure LanePair where
  hi : Byte
  lo : Byte
  deriving DecidableEq, Repr

/-- The register file (R13). -/
structure Lanes where
  af : LanePair
  bc : LanePair
  de : LanePair
  hl : LanePair
  deriving DecidableEq, Repr

/-- The bytes of the ten stores: cells (home address, byte), addresses strictly rising, none equal to the byte its address
reads as unlisted (`Memory.wf`). A byte's home address is its address without the echo. Log 5. -/
abbrev Memory := List Host.Cell

/-- The state record of R12; the last three fields are the model's own (logs 1, 2, 3). -/
structure State where
  /-- R32. -/
  life : Life
  /-- R33. -/
  faulted : Option FatalKind
  /-- R34. -/
  variant : Variant
  /-- R13, R14. -/
  lanes : Lanes
  /-- R22. -/
  pc : Half
  /-- R23. -/
  sp : Half
  /-- R26. -/
  mem : Memory
  /-- R35: oldest first. -/
  diag : List (Severity × EventKind)
  /-- Names the ROM_FILL draw of this block's CONSTRUCT (R64). Log 3. -/
  romDraw : Nat
  /-- The responses given, oldest first (R81, R136). Log 2. -/
  responses : List Response
  /-- The host operations not yet taken, next first (R137). Log 1. -/
  inbox : List HostOp
  deriving DecidableEq, Repr

/-- Why a step stops with no next state. -/
inductive Fault where
  /-- Raised by step on a block whose `faulted` holds `k`: "the faulted block is stuck for good" (R76, R116). Safe. -/
  | stuckFaulted (k : FatalKind)
  /-- Raised by step when a command is offered to an Unloaded block: "In any other state the block takes no command" (R76). Safe. -/
  | stuckUnloaded
  /-- Raised by CONSTRUCT with OpenFailed: Fatal(CartOpenFailed), "no block state exists afterwards" (R98). Safe. -/
  | cartOpenFailed
  /-- Raised by step when CONSTRUCT is offered to a block that exists: CONSTRUCT is "one-time" (R5), the spec gives no effect (log 17). Safe. -/
  | constructAgain
  deriving DecidableEq, Repr

/-- What the model gives no meaning. -/
inductive Refusal where
  /-- Raised by exec for a command that has no meaning yet; no arm raises it. Safe. -/
  | notModelled (mnemonic : String)
  /-- Raised by step on a word that spells no command (R75). Safe. -/
  | illegalCommand
  /-- Raised by CONSTRUCT on an image shorter than 0x149 bytes (R98, D24). Safe. -/
  | headerMissing
  /-- Raised by CONSTRUCT on a cartridge type other than 0x00 (R101, D22). Safe. -/
  | variantNotSpecified
  deriving DecidableEq, Repr

/-- A pair as CONSTRUCT's reset leaves it. AF's low lane goes through the flag mask (R19, R24). -/
def resetPair (p : Pair) : LanePair :=
  { hi := highByte (postBootRegs p)
    lo := if p = .af then lowByte (postBootRegs p) &&& flagWriteMask else lowByte (postBootRegs p) }

/-- The state after CONSTRUCT, which ends with a reset (R130). No cartridge is invented: every ROM byte is unlisted and so
a draw (log 4). -/
def State.reset : State :=
  { life := .ready
    faulted := none
    variant := .noMBC
    lanes := { af := resetPair .af, bc := resetPair .bc, de := resetPair .de, hl := resetPair .hl }
    pc := resetPc
    sp := resetSp
    mem := []
    diag := [(.info, .resetting), (.info, .finishedResetting)]
    romDraw := 0
    responses := []
    inbox := [] }

end Sys2Proof.Machine
end

