-- ==== Sys2Proof/Machine/Flags.lean ====
section
/-! DEFINITION. The flags register F, the low lane of AF (R18-R21). No command computes a flag as a side effect (R21): the
only flag rule is the write mask. -/

namespace Sys2Proof.Machine

/-- What a write of `b` into F stores, by any path (R19). -/
def maskFlags (b : Byte) : Byte := b &&& flagWriteMask

/-- F (R18). -/
def State.flags (s : State) : Byte := s.lanes.af.lo

/-- A write into F (R19, R93); register A is not touched. -/
def State.writeFlags (s : State) (b : Byte) : State :=
  { s with lanes := { s.lanes with af := { s.lanes.af with lo := maskFlags b } } }

/-- Zero, bit 7 (R20). -/
def flagZ (f : Byte) : Bool := f.getLsbD 7

/-- Subtract, bit 6 (R20). -/
def flagN (f : Byte) : Bool := f.getLsbD 6

/-- Half-Carry, bit 5 (R20). -/
def flagH (f : Byte) : Bool := f.getLsbD 5

/-- Carry, bit 4 (R20). -/
def flagC (f : Byte) : Bool := f.getLsbD 4

end Sys2Proof.Machine
end

