-- ==== Sys2Proof/Machine/Operands.lean ====
section
/-! DEFINITION. Register operands: the pair and lane forms of the register-file commands (R13-R19). Every read and write of
a lane goes through here. -/

namespace Sys2Proof.Machine

/-- The two lanes of a pair. -/
def State.lanePair (s : State) : Pair → LanePair
  | .af => s.lanes.af
  | .bc => s.lanes.bc
  | .de => s.lanes.de
  | .hl => s.lanes.hl

/-- Replace both lanes of a pair. The flag mask is the callers' (`writeLane`, `writePair`). -/
def State.setLanePair (s : State) (p : Pair) (x : LanePair) : State :=
  match p with
  | .af => { s with lanes := { s.lanes with af := x } }
  | .bc => { s with lanes := { s.lanes with bc := x } }
  | .de => { s with lanes := { s.lanes with de := x } }
  | .hl => { s with lanes := { s.lanes with hl := x } }

/-- `lane[p][l]` (R14). -/
def State.lane (s : State) (p : Pair) (l : Lane) : Byte :=
  match l with
  | .hi => (s.lanePair p).hi
  | .lo => (s.lanePair p).lo

/-- `pair[p]`, the concatenation of its lanes (R15). -/
def State.pair (s : State) (p : Pair) : Half := joinBytes (s.lane p .hi) (s.lane p .lo)

/-- What a write of `b` to lane `l` of pair `p` stores: F is masked, every other lane is not (R16, R19). -/
def storedLane (p : Pair) (l : Lane) (b : Byte) : Byte :=
  match p, l with
  | .af, .lo => maskFlags b
  | _, _ => b

/-- `lane[p][l] <- b` (R14, R19, R91). -/
def State.writeLane (s : State) (p : Pair) (l : Lane) (b : Byte) : State :=
  match l with
  | .hi => s.setLanePair p { hi := storedLane p .hi b, lo := s.lane p .lo }
  | .lo => s.setLanePair p { hi := s.lane p .hi, lo := storedLane p .lo b }

/-- `pair[p] <- v` (R16): the high lane, then the low lane. -/
def State.writePair (s : State) (p : Pair) (v : Half) : State :=
  (s.writeLane p .hi (highByte v)).writeLane p .lo (lowByte v)

end Sys2Proof.Machine
end

