-- ==== Sys2Proof/Machine/Ops.lean ====
section
/-! DEFINITION. The shared operations: responses and events, fault entry, memory cells, region decode, the banking interface,
byte and 16-bit access through the region guards, and the body of RESET. -/

namespace Sys2Proof.Machine

/-! ## Responses, events and fault entry -/

/-- `respond(r)` (R8, R81). -/
def State.respond (s : State) (r : Response) : State := { s with responses := s.responses ++ [r] }

/-- Append an event to the diagnostic stream (R8, R35). -/
def State.emit (s : State) (v : Severity) (k : EventKind) : State := { s with diag := s.diag ++ [(v, k)] }

/-- The numeric code of a fatal kind (R115). -/
def FatalKind.code : FatalKind → Nat
  | .cartOpenFailed => 0x1
  | .resetNoController => 0x2
  | .ie16Access => 0x3

/-- Fault entry, `raise Fatal(k)` (R116): the sticky `faulted`, the fatal event, the Fault response, and nothing else. There
is no return from it: `faulted` is never cleared (R117). -/
def raiseFatal (k : FatalKind) (s : State) : State :=
  (({ s with faulted := some k }).emit .fatal (.fatal k)).respond (.fault k)

/-! ## Memory cells -/

/-- The byte a cell list holds for an address, if it lists the address. -/
def Memory.find : Memory → Nat → Option Byte
  | [], _ => none
  | c :: m, k => if c.1 = k then some c.2 else Memory.find m k

/-- List the byte `v` for address `k`, in the place the order gives it. -/
def Memory.insert : Memory → Nat → Byte → Memory
  | [], k, v => [(k, v)]
  | c :: m, k, v =>
    if k < c.1 then (k, v) :: c :: m
    else if k = c.1 then (k, v) :: m
    else c :: Memory.insert m k v

/-- List nothing for address `k`. -/
def Memory.erase (m : Memory) (k : Nat) : Memory := m.filter (fun c => c.1 != k)

/-- Store `v` at address `k`: the address is listed only where `v` is not what it reads as unlisted. -/
def Memory.set (m : Memory) (k : Nat) (v : Byte) : Memory :=
  if unlistedByte k = some v then m.erase k else m.insert k v

/-- Does the home address `k` have a backing store (R26)? The echo and the unusable range have none. -/
def backed (k : Nat) : Bool :=
  k < 0xE000 || (0xFE00 ≤ k && k < 0xFEA0) || (0xFF00 ≤ k && k < 0x10000)

/-- The canonical form: addresses strictly rising, each with a store, and no cell that equals what its address reads as
unlisted. -/
abbrev Memory.wf (m : Memory) : Prop :=
  m.Pairwise (fun x y => x.1 < y.1) ∧ ∀ c ∈ m, backed c.1 = true ∧ unlistedByte c.1 ≠ some c.2

/-- The byte at a home address: the listed byte, else the fixed unlisted one, else the block's ROM_FILL draw (R64). -/
def State.cell (s : State) (k : Nat) : Byte :=
  match s.mem.find k with
  | some b => b
  | none => (unlistedByte k).getD (Config.romFill s.romDraw k)

/-- Store a byte at a home address. -/
def State.setCell (s : State) (k : Nat) (v : Byte) : State := { s with mem := s.mem.set k v }

/-! ## Stores and regions -/

/-- The address of a store's byte 0 (R26). -/
def Store.base : Store → Nat
  | .rom0 => 0x0000
  | .romx => 0x4000
  | .vram => 0x8000
  | .eram => 0xA000
  | .wram0 => 0xC000
  | .wramx => 0xD000
  | .oam => 0xFE00
  | .io => 0xFF00
  | .hram => 0xFF80
  | .ie => 0xFFFF

/-- The size of a store in bytes (R6, R26). -/
def Store.size : Store → Nat
  | .rom0 => 16384
  | .romx => 16384
  | .vram => 8192
  | .eram => 8192
  | .wram0 => 4096
  | .wramx => 4096
  | .oam => 160
  | .io => 128
  | .hram => 127
  | .ie => 1

/-- The region a store backs under its own addresses (R26, R38). -/
def Store.region : Store → Region
  | .rom0 => .rom0
  | .romx => .romx
  | .vram => .vram
  | .eram => .eram
  | .wram0 => .wram0
  | .wramx => .wramx
  | .oam => .oam
  | .io => .io
  | .hram => .hram
  | .ie => .ie

/-- `store[R][off]` (R8, R26). -/
def State.storeByte (s : State) (st : Store) (off : Nat) : Byte := s.cell (st.base + off)

/-- `store[R][off] <- v`. -/
def State.setStoreByte (s : State) (st : Store) (off : Nat) (v : Byte) : State := s.setCell (st.base + off) v

/-- The region table, each row (region, first address, end) with the end exclusive (R38, R40, C1). -/
def regionTable : List (Region × Nat × Nat) :=
  [ (.rom0, 0x0000, 0x4000), (.romx, 0x4000, 0x8000), (.vram, 0x8000, 0xA000), (.eram, 0xA000, 0xC000),
    (.wram0, 0xC000, 0xD000), (.wramx, 0xD000, 0xE000), (.echo, 0xE000, 0xFE00), (.oam, 0xFE00, 0xFEA0),
    (.unusable, 0xFEA0, 0xFF00), (.io, 0xFF00, 0xFF80), (.hram, 0xFF80, 0xFFFF), (.ie, 0xFFFF, 0x10000) ]

/-- The first row whose interval holds the address, with the offset in it (R40). -/
def findRegion : List (Region × Nat × Nat) → Nat → Option (Region × Nat)
  | [], _ => none
  | row :: rows, a => if row.2.1 ≤ a ∧ a < row.2.2 then some (row.1, a - row.2.1) else findRegion rows a

/-- `Decode(a)` of R40. The rows cover every address (`findRegion_isSome`), so the default is never taken. -/
def decodeAddr (a : Half) : Region × Nat := (findRegion regionTable a.toNat).getD (.ie, 0)

/-- The store and offset that a decoded address reaches: the echo reaches work RAM (R46), the unusable range nothing (R47),
every other region its own store. -/
def resolve : Region × Nat → Option (Store × Nat)
  | (.rom0, off) => some (.rom0, off)
  | (.romx, off) => some (.romx, off)
  | (.vram, off) => some (.vram, off)
  | (.eram, off) => some (.eram, off)
  | (.wram0, off) => some (.wram0, off)
  | (.wramx, off) => some (.wramx, off)
  | (.echo, off) => if off < 0x1000 then some (.wram0, off) else some (.wramx, off - 0x1000)
  | (.oam, off) => some (.oam, off)
  | (.unusable, _) => none
  | (.io, off) => some (.io, off)
  | (.hram, off) => some (.hram, off)
  | (.ie, off) => some (.ie, off)

/-! ## The banking variant (R63, R64) -/

/-- `IMPLEMENTED(V, R)` (R51, R64): every region of NoMBC. -/
def implemented : Variant → Region → Bool
  | .noMBC, _ => true

/-- `V.romxRead(off)`: NoMBC has one fixed bank (R42, R64). -/
def romxRead (v : Variant) (off : Nat) (s : State) : Byte :=
  match v with
  | .noMBC => s.storeByte .romx off

/-- `V.romWrite(a, v)`: NoMBC drops it and says nothing (R43, R64). -/
def romWrite (v : Variant) (_a : Half) (_b : Byte) (s : State) : State :=
  match v with
  | .noMBC => s

/-- `V.eramRead(off)` (R45, R64). -/
def eramRead (v : Variant) (off : Nat) (s : State) : Byte :=
  match v with
  | .noMBC => s.storeByte .eram off

/-- `V.eramWrite(off, b)` (R45, R64). -/
def eramWrite (v : Variant) (off : Nat) (b : Byte) (s : State) : State :=
  match v with
  | .noMBC => s.setStoreByte .eram off b

/-- The size of the two fixed ROM banks together, 32 KiB (R2, R64). -/
def romWindow : Nat := 0x8000

/-- The ROM cells that `V.init(image)` loads: NoMBC copies the first 32 KiB verbatim into ROM0 and then ROMX, whose home
addresses are the image offsets; what the image does not supply stays a draw (R64). -/
def initRom (v : Variant) (image : List Byte) : Memory :=
  match v with
  | .noMBC => (image.take romWindow).zipIdx.map (fun bi => (bi.2, bi.1))

/-! ## Byte access (R41-R53) -/

/-- The byte a store gives to a read (R41, R42, R44, R45, R48, R50). -/
def readStore (st : Store) (off : Nat) (s : State) : Byte :=
  match st with
  | .rom0 => s.storeByte .rom0 off
  | .romx => romxRead s.variant off s
  | .vram => s.storeByte .vram off
  | .eram => eramRead s.variant off s
  | .wram0 => s.storeByte .wram0 off
  | .wramx => s.storeByte .wramx off
  | .oam => s.storeByte .oam off
  | .io => s.storeByte .io off ||| ioReadOrMask off
  | .hram => s.storeByte .hram off
  | .ie => s.storeByte .ie off

/-- What a byte write at `a` does that reaches a store (R43, R44, R45, R49, R50). -/
def writeStore (st : Store) (off : Nat) (a : Half) (v : Byte) (s : State) : State :=
  match st with
  | .rom0 => romWrite s.variant a v s
  | .romx => romWrite s.variant a v s
  | .vram => s.setStoreByte .vram off v
  | .eram => eramWrite s.variant off v s
  | .wram0 => s.setStoreByte .wram0 off v
  | .wramx => s.setStoreByte .wramx off v
  | .oam => s.setStoreByte .oam off v
  | .io => s.setStoreByte .io off v
  | .hram => s.setStoreByte .hram off v
  | .ie => s.setStoreByte .ie off v

/-- Does an access to the region degrade to its default (R51, R52)? `impl` says which regions are implemented. -/
def degraded (impl : Region → Bool) (r : Region) : Bool := !impl r && r != .unusable

/-- `Read8(a)` of R52 for a variant that implements the regions `impl`: the byte and the state after, in which only `diag` can
differ. An echo access is the access to the work RAM byte it reaches, guard included. -/
def readByteWith (impl : Region → Bool) (a : Half) (s : State) : Byte × State :=
  let ro := decodeAddr a
  if degraded impl ro.1 then (0x00#8, s.emit .warning .unimplementedRegion)
  else
    match resolve ro with
    | none => (0x00#8, s)
    | some so =>
      if degraded impl so.1.region then (0x00#8, s.emit .warning .unimplementedRegion)
      else (readStore so.1 so.2 s, s)

/-- `Write8(a, v)` of R53 for a variant that implements the regions `impl`. -/
def writeByteWith (impl : Region → Bool) (a : Half) (v : Byte) (s : State) : State :=
  let ro := decodeAddr a
  if degraded impl ro.1 then s.emit .warning .unimplementedRegion
  else
    match resolve ro with
    | none => s
    | some so =>
      if degraded impl so.1.region then s.emit .warning .unimplementedRegion
      else writeStore so.1 so.2 a v s

/-- `Read8(a)` (R52). -/
def read8 (a : Half) (s : State) : Byte × State := readByteWith (implemented s.variant) a s

/-- `Write8(a, v)` (R53). -/
def write8 (a : Half) (v : Byte) (s : State) : State := writeByteWith (implemented s.variant) a v s

/-- The byte that a read of address `a` gives. -/
def State.byteAt (s : State) (a : Half) : Byte := (read8 a s).1

/-! ## 16-bit access (R54-R60) -/

/-- The 16-bit latch guard (R55): either byte of the access would be the latch. -/
def latchGuard (a : Half) : Bool := a == 0xFFFE#16 || a == 0xFFFF#16

/-- `Read16(a)` (R56): the guard first, then the low byte at `a`, then the high byte at `a + 1`. -/
def read16 (a : Half) (s : State) : Except FatalKind (Half × State) :=
  if latchGuard a then .error .ie16Access
  else
    let lo := read8 a s
    let hi := read8 (a + 1#16) lo.2
    .ok (joinBytes hi.1 lo.1, hi.2)

/-- `Write16(a, v)` (R57): the guard first, then `v[7:0]` at `a`, then `v[15:8]` at `a + 1`. -/
def write16 (a : Half) (v : Half) (s : State) : Except FatalKind State :=
  if latchGuard a then .error .ie16Access
  else .ok (write8 (a + 1#16) (highByte v) (write8 a (lowByte v) s))

/-! ## The body of RESET (R102) -/

/-- Replay a table of (address, value) pairs through the byte write path, in order (R102). -/
def replay : List (Half × Byte) → State → State
  | [], s => s
  | e :: es, s => replay es (write8 e.1 e.2 s)

/-- The register step of `Reset()` (R102): PC, SP, then the four pairs. -/
def resetRegisters (s : State) : State :=
  (((({ s with pc := resetPc, sp := resetSp }).writePair .af (postBootRegs .af)).writePair .bc (postBootRegs .bc)).writePair
    .de (postBootRegs .de)).writePair .hl (postBootRegs .hl)

/-- `Reset()` (R102). -/
def resetBody (s : State) : State :=
  (replay resetIoTable (resetRegisters (s.emit .info .resetting))).emit .info .finishedResetting

end Sys2Proof.Machine
end

