-- ==== Sys2Proof/Machine/AddressSpace.lean ====
section
/-! DEFINITION. The address-space commands READ8, READ16, WRITE8, WRITE16 (40_memory_access.md). -/

namespace Sys2Proof.Machine

/-- READ8 (R84). -/
def execRead8 (a : Half) (s : State) : Host.Outcome State Fault Refusal :=
  let r := read8 a s
  .next (r.2.respond (.value (zextByte r.1)))

/-- READ16 (R85). -/
def execRead16 (a : Half) (s : State) : Host.Outcome State Fault Refusal :=
  match read16 a s with
  | .error k => .next (raiseFatal k s)
  | .ok r => .next (r.2.respond (.value r.1))

/-- WRITE8 (R86). -/
def execWrite8 (a : Half) (b : Byte) (s : State) : Host.Outcome State Fault Refusal :=
  .next ((write8 a b s).respond .done)

/-- WRITE16 (R87). -/
def execWrite16 (a : Half) (v : Half) (s : State) : Host.Outcome State Fault Refusal :=
  match write16 a v s with
  | .error k => .next (raiseFatal k s)
  | .ok t => .next (t.respond .done)

end Sys2Proof.Machine
end

