-- ==== Sys2Proof/Machine/Lifecycle.lean ====
section
/-! DEFINITION. The lifecycle (42_lifecycle.md): the command RESET and the host operation CONSTRUCT. -/

namespace Sys2Proof.Machine

/-- RESET (R102). With no controller it raises Fatal(ResetNoController) (R105, D40); through step that case is not reached,
since an Unloaded block takes no command (R76). -/
def execReset (s : State) : Host.Outcome State Fault Refusal :=
  match s.life with
  | .unloaded => .next (raiseFatal .resetNoController s)
  | .ready => .next ((resetBody s).respond .done)

/-- `VariantSelect(t)` (R101): only type 0x00 selects a specified variant. -/
def variantSelect (t : Byte) : Option Variant := if t = 0x00#8 then some .noMBC else none

/-- The ROM size that a size code declares, `32KB << n` (R100). -/
def declaredRomSize (n : Byte) : Nat := 32768 * 2 ^ n.toNat

/-- `RomSizeCheck(img)` (R100): a mismatch is an advisory event and nothing else. -/
def romSizeCheck (image : List Byte) (s : State) : State :=
  if declaredRomSize (image.getD romSizeOffset 0x00#8) ≠ image.length then s.emit .warning .romSizeMismatch else s

/-- Store `v` at the `n` home addresses from `lo` on. -/
def Memory.fill (m : Memory) (lo : Nat) : Nat → Byte → Memory
  | 0, _ => m
  | n + 1, v => (Memory.fill m lo n v).set (lo + n) v

/-- The stores as CONSTRUCT allocates them (R98): the ROM cells of the image, and 0x00 in every byte of the other stores.
VRAM, ERAM, WRAM0, WRAMX, OAM and HRAM read 0x00 where no cell is listed, so only IO and the latch need cells. -/
def allocatedMemory (v : Variant) (image : List Byte) : Memory :=
  Memory.fill (Memory.fill (initRom v image) Store.io.base Store.io.size 0x00#8) Store.ie.base Store.ie.size 0x00#8

/-- The block between allocation and the size check (R98): still Unloaded, not faulted, an empty diagnostic stream, and a new
ROM_FILL draw (log 3). Lanes, PC and SP "hold no value yet": the reset step writes each before it can be seen. -/
def allocated (v : Variant) (image : List Byte) (s : State) : State :=
  { s with
    life := .unloaded, faulted := none, variant := v, diag := [], mem := allocatedMemory v image
    romDraw := s.romDraw + 1 }

/-- CONSTRUCT (R98): the order of outcomes is R118's. -/
def construct (input : CartInput) (s : State) : Host.Outcome State Fault Refusal :=
  match input with
  | .openFailed => .fault .cartOpenFailed
  | .image img =>
    if img.length < 0x149 then .refused .headerMissing
    else
      match variantSelect (img.getD cartTypeOffset 0x00#8) with
      | none => .refused .variantNotSpecified
      | some v => .next { resetBody (romSizeCheck img (allocated v img s)) with life := .ready }

/-- A block before CONSTRUCT (R32). Its registers and stores hold no value that any operation can see. Log 17. -/
def State.unloaded : State := { State.reset with life := .unloaded, diag := [] }

end Sys2Proof.Machine
end

