-- ==== Sys2Proof/Machine/Metadata.lean ====
section
/-! DEFINITION. The opcode metadata command LOOKUP (43_opcode_metadata.md). -/

namespace Sys2Proof.Machine

/-- LOOKUP (R108): total over all 256 opcode bytes, no state changes. -/
def execLookup (op : Byte) (s : State) : Host.Outcome State Fault Refusal :=
  .next (s.respond (.record (opcodeMeta op)))

end Sys2Proof.Machine
end

