-- ==== Sys2Proof/Machine/RegisterFile.lean ====
section
/-! DEFINITION. The register-file commands (41_register_file.md). -/

namespace Sys2Proof.Machine

/-- READ_PAIR (R88). -/
def execReadPair (p : Pair) (s : State) : Host.Outcome State Fault Refusal :=
  .next (s.respond (.value (s.pair p)))

/-- WRITE_PAIR (R89). -/
def execWritePair (p : Pair) (v : Half) (s : State) : Host.Outcome State Fault Refusal :=
  .next ((s.writePair p v).respond .done)

/-- READ_BYTE (R90). -/
def execReadByte (p : Pair) (l : Lane) (s : State) : Host.Outcome State Fault Refusal :=
  .next (s.respond (.value (zextByte (s.lane p l))))

/-- WRITE_BYTE (R91). -/
def execWriteByte (p : Pair) (l : Lane) (b : Byte) (s : State) : Host.Outcome State Fault Refusal :=
  .next ((s.writeLane p l b).respond .done)

/-- READ_FLAGS (R92). -/
def execReadFlags (s : State) : Host.Outcome State Fault Refusal :=
  .next (s.respond (.value (zextByte s.flags)))

/-- WRITE_FLAGS (R93). -/
def execWriteFlags (f : Byte) (s : State) : Host.Outcome State Fault Refusal :=
  .next ((s.writeFlags f).respond .done)

/-- READ_PC (R94). -/
def execReadPc (s : State) : Host.Outcome State Fault Refusal :=
  .next (s.respond (.value s.pc))

/-- WRITE_PC (R95). -/
def execWritePc (v : Half) (s : State) : Host.Outcome State Fault Refusal :=
  .next (({ s with pc := v }).respond .done)

/-- READ_SP (R96). -/
def execReadSp (s : State) : Host.Outcome State Fault Refusal :=
  .next (s.respond (.value s.sp))

/-- WRITE_SP (R97). -/
def execWriteSp (v : Half) (s : State) : Host.Outcome State Fault Refusal :=
  .next (({ s with sp := v }).respond .done)

end Sys2Proof.Machine
end

