-- ==== Sys2Proof/Machine/Dispatch.lean ====
section
/-! DEFINITION. One arm per command of spec/opcode_table.json, each a call of that command's meaning. The acceptance test of
R76 stands before decoding, in step. -/

namespace Sys2Proof.Machine

def exec (i : Instr) (s : State) : Host.Outcome State Fault Refusal :=
  match i with
  | .read8 a => Sys2Proof.Machine.execRead8 a s
  | .read16 a => Sys2Proof.Machine.execRead16 a s
  | .write8 a b => Sys2Proof.Machine.execWrite8 a b s
  | .write16 a v => Sys2Proof.Machine.execWrite16 a v s
  | .reset => Sys2Proof.Machine.execReset s
  | .readPair p => Sys2Proof.Machine.execReadPair p s
  | .writePair p v => Sys2Proof.Machine.execWritePair p v s
  | .readByte p l => Sys2Proof.Machine.execReadByte p l s
  | .writeByte p l b => Sys2Proof.Machine.execWriteByte p l b s
  | .readFlags => Sys2Proof.Machine.execReadFlags s
  | .writeFlags f => Sys2Proof.Machine.execWriteFlags f s
  | .readPc => Sys2Proof.Machine.execReadPc s
  | .writePc v => Sys2Proof.Machine.execWritePc v s
  | .readSp => Sys2Proof.Machine.execReadSp s
  | .writeSp v => Sys2Proof.Machine.execWriteSp v s
  | .lookup op => Sys2Proof.Machine.execLookup op s

end Sys2Proof.Machine
end

