-- ==== Sys2Proof/Machine/Intake.lean ====
section
/-! DEFINITION. How the block takes a host operation: the acceptance test, decoding and running a command word, CONSTRUCT. -/

namespace Sys2Proof.Machine

/-- Does the block take commands (R76)? -/
def State.accepting (s : State) : Bool := s.life == .ready && s.faulted == none

/-- Decode a word and run the command it spells; a word that spells none is refused (R75). -/
def runWord (w : CmdWord) (s : State) : Host.Outcome State Fault Refusal :=
  match decode w with
  | .error .illegalCommand => .refused .illegalCommand
  | .ok i => exec i s

/-- Take one host operation, already removed from the inbox (R76, R98, R137). -/
def takeOp (op : HostOp) (s : State) : Host.Outcome State Fault Refusal :=
  match op, s.life with
  | .command w, .ready => runWord w s
  | .command _, .unloaded => .fault .stuckUnloaded
  | .construct input, .unloaded => construct input s
  | .construct _, .ready => .fault .constructAgain

/-- One step of the block: a faulted block is stuck (R76, R116), a block that is sent nothing idles (R129), and otherwise the
next host operation is taken. -/
def stepBlock (s : State) : Host.Outcome State Fault Refusal :=
  match s.faulted with
  | some k => .fault (.stuckFaulted k)
  | none =>
    match s.inbox with
    | [] => .next s
    | op :: rest => takeOp op { s with inbox := rest }

/-- The state in which the very next host operation is the command word that a table row's bits give. -/
def sendTableWord (s : State) (nbits w : Nat) : State :=
  { s with inbox := .command (tableWord nbits w) :: s.inbox }

end Sys2Proof.Machine
end

