-- ==== Sys2Proof/Machine/Step.lean ====
section
/-! DEFINITION. The step of the machine and the host's way to place a command. -/

namespace Sys2Proof.Machine

/-- One step (Intake.lean). -/
def step (s : State) : Host.Outcome State Fault Refusal := stepBlock s

/-- `s` with the command word placed where step takes its next operation: the head of the inbox. The block fetches nothing
from memory (R69), so nothing else changes. Log 1. -/
def State.withFetchWord (s : State) (nbits w : Nat) : State := sendTableWord s nbits w

end Sys2Proof.Machine
end

