-- ==== Sys2Proof/Machine/Listing.lean ====
section
/-! DEFINITION. The textual form of commands (R83): one command per line, mnemonic in upper case, operands separated by commas,
numbers in hexadecimal with 0x. A line is a list of characters. No meaning uses this file. Log 21. -/

namespace Sys2Proof.Machine

/-- The mnemonic of a command (R73, spec/opcode_table.json). -/
def mnemonicText : Instr → List Char
  | .read8 _         => ['R', 'E', 'A', 'D', '8']
  | .read16 _        => ['R', 'E', 'A', 'D', '1', '6']
  | .write8 _ _      => ['W', 'R', 'I', 'T', 'E', '8']
  | .write16 _ _     => ['W', 'R', 'I', 'T', 'E', '1', '6']
  | .reset           => ['R', 'E', 'S', 'E', 'T']
  | .readPair _      => ['R', 'E', 'A', 'D', '_', 'P', 'A', 'I', 'R']
  | .writePair _ _   => ['W', 'R', 'I', 'T', 'E', '_', 'P', 'A', 'I', 'R']
  | .readByte _ _    => ['R', 'E', 'A', 'D', '_', 'B', 'Y', 'T', 'E']
  | .writeByte _ _ _ => ['W', 'R', 'I', 'T', 'E', '_', 'B', 'Y', 'T', 'E']
  | .readFlags       => ['R', 'E', 'A', 'D', '_', 'F', 'L', 'A', 'G', 'S']
  | .writeFlags _    => ['W', 'R', 'I', 'T', 'E', '_', 'F', 'L', 'A', 'G', 'S']
  | .readPc          => ['R', 'E', 'A', 'D', '_', 'P', 'C']
  | .writePc _       => ['W', 'R', 'I', 'T', 'E', '_', 'P', 'C']
  | .readSp          => ['R', 'E', 'A', 'D', '_', 'S', 'P']
  | .writeSp _       => ['W', 'R', 'I', 'T', 'E', '_', 'S', 'P']
  | .lookup _        => ['L', 'O', 'O', 'K', 'U', 'P']

/-- The hexadecimal digits, in order of value. -/
def hexDigits : List Char := ['0', '1', '2', '3', '4', '5', '6', '7', '8', '9', 'A', 'B', 'C', 'D', 'E', 'F']

/-- One hexadecimal digit. -/
def hexDigit (n : BitVec 4) : Char := hexDigits.getD n.toNat '0'

/-- The value of a hexadecimal digit. -/
def hexValue (c : Char) : Option Nat := hexDigits.findIdx? (· == c)

/-- A byte operand. -/
def byteText (b : Byte) : List Char := ['0', 'x', hexDigit (b.extractLsb' 4 4), hexDigit (b.extractLsb' 0 4)]

/-- A 16-bit operand. -/
def halfText (v : Half) : List Char :=
  ['0', 'x', hexDigit (v.extractLsb' 12 4), hexDigit (v.extractLsb' 8 4), hexDigit (v.extractLsb' 4 4),
    hexDigit (v.extractLsb' 0 4)]

/-- A pair operand. -/
def pairText : Pair → List Char
  | .af => ['A', 'F']
  | .bc => ['B', 'C']
  | .de => ['D', 'E']
  | .hl => ['H', 'L']

/-- A lane operand. -/
def laneText : Lane → List Char
  | .hi => ['H', 'I']
  | .lo => ['L', 'O']

/-- The operands of a command, in the order R83 writes them. -/
def operandTexts : Instr → List (List Char)
  | .read8 a         => [halfText a]
  | .read16 a        => [halfText a]
  | .write8 a b      => [halfText a, byteText b]
  | .write16 a v     => [halfText a, halfText v]
  | .reset           => []
  | .readPair p      => [pairText p]
  | .writePair p v   => [pairText p, halfText v]
  | .readByte p l    => [pairText p, laneText l]
  | .writeByte p l b => [pairText p, laneText l, byteText b]
  | .readFlags       => []
  | .writeFlags f    => [byteText f]
  | .readPc          => []
  | .writePc v       => [halfText v]
  | .readSp          => []
  | .writeSp v       => [halfText v]
  | .lookup op       => [byteText op]

/-- Operands after the mnemonic: a space before the first, a comma and a space before each other. -/
def joinOperands : List (List Char) → List Char
  | [] => []
  | [x] => x
  | x :: y :: rest => x ++ ',' :: ' ' :: joinOperands (y :: rest)

/-- A command as a line of text. -/
def printCommand (i : Instr) : List Char :=
  match operandTexts i with
  | [] => mnemonicText i
  | ops => mnemonicText i ++ ' ' :: joinOperands ops

/-- The characters up to the first `c`, and those after it. -/
def splitFirst (c : Char) : List Char → List Char × Option (List Char)
  | [] => ([], none)
  | x :: xs => if x = c then ([], some xs) else (x :: (splitFirst c xs).1, (splitFirst c xs).2)

/-- The operands of the text after a mnemonic: split at commas, spaces dropped. -/
def splitOperands : List Char → List (List Char)
  | [] => [[]]
  | x :: xs =>
    if x = ',' then [] :: splitOperands xs
    else if x = ' ' then splitOperands xs
    else
      match splitOperands xs with
      | [] => [[x]]
      | o :: os => (x :: o) :: os

/-- The number that hexadecimal digits spell, after what was read before. -/
def hexNumber : List Char → Nat → Option Nat
  | [], n => some n
  | c :: cs, n =>
    match hexValue c with
    | some d => hexNumber cs (16 * n + d)
    | none => none

/-- A number operand that fits in `w` bits. -/
def parseNumber (w : Nat) : List Char → Option (BitVec w)
  | '0' :: 'x' :: c :: cs =>
    match hexNumber (c :: cs) 0 with
    | some n => if n < 2 ^ w then some (BitVec.ofNat w n) else none
    | none => none
  | _ => none

/-- A pair operand. -/
def parsePair (t : List Char) : Option Pair := [Pair.af, .bc, .de, .hl].find? (fun p => pairText p == t)

/-- A lane operand. -/
def parseLane (t : List Char) : Option Lane := [Lane.hi, .lo].find? (fun l => laneText l == t)

/-- The commands, each with zero operands: the mnemonics a line can begin with. -/
def mnemonicForms : List Instr :=
  [ .read8 0, .read16 0, .write8 0 0, .write16 0 0, .reset, .readPair .af, .writePair .af 0, .readByte .af .hi,
    .writeByte .af .hi 0, .readFlags, .writeFlags 0, .readPc, .writePc 0, .readSp, .writeSp 0, .lookup 0 ]

/-- The command of a form and its operand texts. -/
def parseOperands : Instr → List (List Char) → Option Instr
  | .read8 _, [a] => (parseNumber 16 a).map .read8
  | .read16 _, [a] => (parseNumber 16 a).map .read16
  | .write8 _ _, [a, b] => (parseNumber 16 a).bind fun x => (parseNumber 8 b).map (.write8 x)
  | .write16 _ _, [a, v] => (parseNumber 16 a).bind fun x => (parseNumber 16 v).map (.write16 x)
  | .reset, [] => some .reset
  | .readPair _, [p] => (parsePair p).map .readPair
  | .writePair _ _, [p, v] => (parsePair p).bind fun x => (parseNumber 16 v).map (.writePair x)
  | .readByte _ _, [p, l] => (parsePair p).bind fun x => (parseLane l).map (.readByte x)
  | .writeByte _ _ _, [p, l, b] =>
    (parsePair p).bind fun x => (parseLane l).bind fun y => (parseNumber 8 b).map (.writeByte x y)
  | .readFlags, [] => some .readFlags
  | .writeFlags _, [f] => (parseNumber 8 f).map .writeFlags
  | .readPc, [] => some .readPc
  | .writePc _, [v] => (parseNumber 16 v).map .writePc
  | .readSp, [] => some .readSp
  | .writeSp _, [v] => (parseNumber 16 v).map .writeSp
  | .lookup _, [op] => (parseNumber 8 op).map .lookup
  | _, _ => none

/-- A line read as a command; none for any other line, a CONSTRUCT line among them, which has no word (R82, R83). -/
def parseCommand (line : List Char) : Option Instr :=
  let head := splitFirst ' ' line
  match mnemonicForms.find? (fun i => mnemonicText i == head.1) with
  | none => none
  | some i =>
    match head.2 with
    | none => parseOperands i []
    | some rest => parseOperands i (splitOperands rest)

end Sys2Proof.Machine
end

