-- ==== Sys2Proof/Safety.lean ====
section
/-! DEFINITION. What counts as a safe state and a good end of a run, in the terms claims use. -/

namespace Sys2Proof.Machine

/-- A run ends well when "the requester stops issuing commands while `life = Ready` and `faulted = None`" (R136): nothing is
left to send (log 1). The observation of the run is the state, with its responses and its events. -/
def State.endsWell (s : State) : Bool := s.life == .ready && s.faulted == none && s.inbox == []

/-- F[2:0] = 0, which "holds in every reachable state" (R19). -/
def State.flagsClean (s : State) : Prop := s.flags &&& 0x07#8 = 0#8

/-- A fatal kind in `faulted` is one a command can raise (R115, R118), is the block's last event (R116), and stands in a block
that exists (R76, R98). -/
def State.faultRecorded (s : State) : Prop :=
  ∀ k, s.faulted = some k → k = .ie16Access ∧ s.life = .ready ∧ s.diag.getLast? = some (.fatal, .fatal k)

/-- The invariant of the block. -/
structure State.Inv (s : State) : Prop where
  /-- Memory is in canonical form. -/
  memory : s.mem.wf
  /-- The three unused bits of F read zero (R19). -/
  flags : s.flagsClean
  /-- A fault is sticky, recorded and of the one kind a command raises. -/
  fault : s.faultRecorded

/-! ## Vocabulary of the claims -/

/-- The stored byte that address `a` reaches, by the expression byte access uses: none in the unusable range. -/
def reach (a : Half) : Option (Store × Nat) := resolve (decodeAddr a)

/-- A byte write at `a` stores: `a` reaches a stored byte and lies above the ROM range (R43, R47). -/
def Writable (a : Half) : Prop := reach a ≠ none ∧ 0x8000 ≤ a.toNat

/-- The state with any byte `f` in F, bits 2:0 not masked, and all else the same. -/
abbrev State.withF (s : State) (f : Byte) : State := s.setLanePair .af { hi := s.lane .af .hi, lo := f }

/-- The commands that write F (R21). -/
def writesFlags : Instr → Bool
  | .writePair p _ => p == .af
  | .writeByte p l _ => p == .af && l == .lo
  | .writeFlags _ => true
  | .reset => true
  | .read8 _ | .read16 _ | .write8 _ _ | .write16 _ _ | .readPair _ | .readByte _ _ | .readFlags => false
  | .readPc | .writePc _ | .readSp | .writeSp _ | .lookup _ => false

/-- The commands that read F (R21). -/
def readsFlags : Instr → Bool
  | .readPair p => p == .af
  | .readByte p l => p == .af && l == .lo
  | .readFlags => true
  | .read8 _ | .read16 _ | .write8 _ _ | .write16 _ _ | .reset | .writePair _ _ | .writeByte _ _ _ => false
  | .writeFlags _ | .readPc | .writePc _ | .readSp | .writeSp _ | .lookup _ => false

/-- A response that carries a value. -/
def Response.isValue : Response → Bool
  | .value _ => true
  | .record _ | .done | .fault _ => false

/-- A response that carries an opcode record. -/
def Response.isRecord : Response → Bool
  | .record _ => true
  | .value _ | .done | .fault _ => false

/-- The kind of response an accepted command gives when it raises no fatal condition (R81). -/
def responseFits (i : Instr) (r : Response) : Bool :=
  match i with
  | .read8 _ | .read16 _ | .readPair _ | .readByte _ _ | .readFlags | .readPc | .readSp => r.isValue
  | .lookup _ => r.isRecord
  | .write8 _ _ | .write16 _ _ | .reset | .writePair _ _ | .writeByte _ _ _ => r == .done
  | .writeFlags _ | .writePc _ | .writeSp _ => r == .done

end Sys2Proof.Machine
end

