-- ==== Sys2Proof/Certificates/Slice0/Obligations.lean ====
section
/-! DEFINITION. The statements for the provers, each one claim of the spec about the block. A docstring that names a log entry
or a decision D<n> says that a clause rests on a choice of the model or of the spec. -/

open Sys2Proof Sys2Proof.Machine

/-! ## Encoding (30_encoding.md; the encoding is the spec's own, D2-D6) -/

/-- R72-R74, every command at every operand: the decoder reads back what the encoder writes. -/
def Obligations.DecodeOfEncodeIsIdentity : Prop :=
  ∀ i : Instr, decode (encode i) = .ok i

/-- R74: a word that decodes is the one word of its command. -/
def Obligations.EncodeOfDecodeIsIdentity : Prop :=
  ∀ (w : CmdWord) (i : Instr), decode w = .ok i → encode i = w

/-- R74, R75: the decoder, which checks the "bits required zero" column, accepts exactly the words that the mask and match
columns call well formed, and refuses every other by name. -/
def Obligations.DecodeAcceptsExactlyWellFormedWords : Prop :=
  ∀ w : CmdWord, ((∃ i, decode w = .ok i) ↔ wordWf w = true) ∧
    (wordWf w = false → decode w = .error .illegalCommand)

/-- R74: "Exactly one row matches a well-formed word, because the rows differ in OP." -/
def Obligations.ExactlyOneRowFitsWellFormedWord : Prop :=
  ∀ w : CmdWord, wordWf w = true → ∃ r ∈ cmdRows, r.fits w = true ∧ ∀ r' ∈ cmdRows, r'.fits w = true → r' = r

/-- R83: the words of its examples, and some from 95_test_vectors.md, decode to the commands written beside them. -/
def Obligations.SampleWordsDecode : Prop :=
  decode 0x00C0000000#40 = .ok (.read8 0xC000#16) ∧
  decode 0x10C0000000#40 = .ok (.read16 0xC000#16) ∧
  decode 0x20C000005A#40 = .ok (.write8 0xC000#16 0x5A#8) ∧
  decode 0x30C000BEEF#40 = .ok (.write16 0xC000#16 0xBEEF#16) ∧
  decode 0x4000000000#40 = .ok .reset ∧
  decode 0x5C00000000#40 = .ok (.readPair .hl) ∧
  decode 0x6400001234#40 = .ok (.writePair .bc 0x1234#16) ∧
  decode 0x8E000000AB#40 = .ok (.writeByte .hl .hi 0xAB#8) ∧
  decode 0xF000000020#40 = .ok (.lookup 0x20#8) ∧
  decode 0x0100000000#40 = .error .illegalCommand

/-- R83, log 21: a command printed as a line is parsed back as itself. -/
def Obligations.PrintedLineParsesBack : Prop :=
  ∀ i : Instr, parseCommand (printCommand i) = some i

/-! ## Steps -/

/-- R76: a Ready block that is not faulted runs the command its next word spells; the word leaves the inbox (log 1). -/
def Obligations.StepRunsDecodedCommand : Prop :=
  ∀ (s : State) (w : CmdWord) (rest : List HostOp) (i : Instr),
    s.life = .ready → s.faulted = none → s.inbox = .command w :: rest → decode w = .ok i →
      step s = exec i { s with inbox := rest }

/-- Log 1: the word that withFetchWord places is what the very next step runs, on the state it was placed in. -/
def Obligations.PlacedWordIsRunNext : Prop :=
  ∀ (s : State) (w : Nat) (i : Instr),
    s.life = .ready → s.faulted = none → decodeTableWord 40 w = some i → step (s.withFetchWord 40 w) = exec i s

/-- R75: a word that fits no row of R74 is refused, and nothing is run. -/
def Obligations.IllFormedWordIsRefused : Prop :=
  ∀ (s : State) (w : CmdWord) (rest : List HostOp),
    s.life = .ready → s.faulted = none → s.inbox = .command w :: rest → wordWf w = false →
      step s = .refused .illegalCommand

/-- R76, R116: a faulted block has no step, whatever it is sent, and an Unloaded block takes no command. The names of the stops
are the model's (log 15). -/
def Obligations.StuckBlockTakesNoCommand : Prop :=
  (∀ (s : State) (k : FatalKind), s.faulted = some k → step s = .fault (.stuckFaulted k)) ∧
  (∀ (s : State) (w : CmdWord) (rest : List HostOp),
    s.faulted = none → s.life = .unloaded → s.inbox = .command w :: rest → step s = .fault .stuckUnloaded)

/-- R129: "all state survives an idle period unchanged." A step with nothing to take is the model's idle period (log 16). -/
def Obligations.IdleBlockKeepsItsState : Prop :=
  ∀ s : State, s.faulted = none → s.inbox = [] → step s = .next s

/-- R98, R137: an Unloaded block takes CONSTRUCT; a block that exists does not (log 17). -/
def Obligations.StepTakesConstructOnce : Prop :=
  (∀ (s : State) (c : CartInput) (rest : List HostOp),
    s.faulted = none → s.life = .unloaded → s.inbox = .construct c :: rest →
      step s = construct c { s with inbox := rest }) ∧
  (∀ (s : State) (c : CartInput) (rest : List HostOp),
    s.faulted = none → s.life = .ready → s.inbox = .construct c :: rest → step s = .fault .constructAgain)

/-! ## Whole-machine rules -/

/-- The invariant is inductive: canonical memory (log 5), F[2:0] = 0 (R19), and a fault only of the kind a command raises,
recorded as the last event of a block that exists (R116, R118). -/
def Obligations.EveryStepKeepsInvariant : Prop :=
  ∀ s t : State, s.Inv → step s = .next t → t.Inv

/-- The reset state meets the invariant. -/
def Obligations.ResetStateMeetsInvariant : Prop :=
  State.reset.Inv

/-- R43, R69: no step of a block that exists changes what any ROM address reads as. -/
def Obligations.NoStepChangesRom : Prop :=
  ∀ s t : State, s.life = .ready → step s = .next t → ∀ a : Half, a.toNat < 0x8000 → t.byteAt a = s.byteAt a

/-- After R21: F is written only by WRITE_PAIR AF, WRITE_BYTE AF LO, WRITE_FLAGS and RESET, and read only by READ_PAIR AF,
READ_BYTE AF LO and READ_FLAGS: every other command does the same whatever F holds. A command that writes F gives the same
state from every F; RESET with no controller (D40, log 18) resets nothing, so there F stays what it was. -/
def Obligations.OnlyNamedCommandsUseFlags : Prop :=
  ∀ (i : Instr) (s t : State), exec i s = .next t →
    (writesFlags i = false → t.flags = s.flags) ∧
    (writesFlags i = false → readsFlags i = false → ∀ f : Byte, exec i (s.withF f) = .next (t.withF f)) ∧
    (writesFlags i = true → i ≠ .reset ∨ s.life = .ready → ∀ f : Byte, exec i (s.withF f) = .next t) ∧
    (i = .reset → s.life = .unloaded → t.flags = s.flags ∧ ∀ f : Byte, exec i (s.withF f) = .next (t.withF f))

/-- R22, R23, D7: only RESET and WRITE_PC change PC, and only RESET and WRITE_SP change SP. -/
def Obligations.OnlyNamedCommandsMovePcAndSp : Prop :=
  ∀ (i : Instr) (s t : State), exec i s = .next t → i ≠ .reset →
    ((∀ v, i ≠ .writePc v) → t.pc = s.pc) ∧ ((∀ v, i ≠ .writeSp v) → t.sp = s.sp)

/-- R27: a byte of a store changes only by a write routed to it or by a reset table entry that lands in it. -/
def Obligations.StoreByteChangesOnlyByRoutedWrite : Prop :=
  ∀ (i : Instr) (s t : State) (st : Store) (off : Nat), exec i s = .next t → off < st.size →
    t.storeByte st off ≠ s.storeByte st off →
      (∃ a b, i = .write8 a b ∧ reach a = some (st, off)) ∨
      (∃ a v, i = .write16 a v ∧ (reach a = some (st, off) ∨ reach (a + 1#16) = some (st, off))) ∨
      (i = .reset ∧ ∃ e ∈ resetIoTable, reach e.1 = some (st, off))

/-- R35, R116, R120: a command appends to the diagnostic stream, and what it appends is nothing, RESET's two info events, or
the event of the fault it enters. -/
def Obligations.CommandsOnlyAppendToDiag : Prop :=
  ∀ (i : Instr) (s t : State), exec i s = .next t →
    t.diag = s.diag ∨
    (i = .reset ∧ t.diag = s.diag ++ [(.info, .resetting), (.info, .finishedResetting)]) ∨
    (∃ k, t.faulted = some k ∧ t.diag = s.diag ++ [(.fatal, .fatal k)])

/-- R81, D6: a command gives exactly one response, of the kind R81 names for it, or Fault(kind) when it enters a fault. -/
def Obligations.EachCommandGivesOneResponse : Prop :=
  ∀ (i : Instr) (s t : State), exec i s = .next t →
    ∃ r, t.responses = s.responses ++ [r] ∧ (responseFits i r = true ∨ ∃ k, r = .fault k ∧ t.faulted = some k)

/-- R115, R118, D15, D31: on a Ready block that is not faulted, only READ16 and WRITE16 at 0xFFFE and 0xFFFF raise a fatal
condition, and it is IE16Access. -/
def Obligations.OnlyLatchAccessIsFatal : Prop :=
  ∀ (i : Instr) (s t : State), exec i s = .next t → s.life = .ready → s.faulted = none →
    t.faulted = none ∨
    (t.faulted = some .ie16Access ∧
      ∃ a, (a = 0xFFFE#16 ∨ a = 0xFFFF#16) ∧ (i = .read16 a ∨ ∃ v, i = .write16 a v))

/-- R32, R34, R64: no command changes the life, the variant or the ROM_FILL draw of the block, or takes from the inbox. -/
def Obligations.CommandsKeepLifeVariantAndDraw : Prop :=
  ∀ (i : Instr) (s t : State), exec i s = .next t →
    t.life = s.life ∧ t.variant = s.variant ∧ t.romDraw = s.romDraw ∧ t.inbox = s.inbox

/-! ## The address space -/

/-- R38, R40: the region table, and that every address lies in exactly one row of it and decodes to that row. -/
def Obligations.EveryAddressHasOneRegion : Prop :=
  regionTable =
    [ (.rom0, 0x0000, 0x4000), (.romx, 0x4000, 0x8000), (.vram, 0x8000, 0xA000), (.eram, 0xA000, 0xC000),
      (.wram0, 0xC000, 0xD000), (.wramx, 0xD000, 0xE000), (.echo, 0xE000, 0xFE00), (.oam, 0xFE00, 0xFEA0),
      (.unusable, 0xFEA0, 0xFF00), (.io, 0xFF00, 0xFF80), (.hram, 0xFF80, 0xFFFF), (.ie, 0xFFFF, 0x10000) ] ∧
  ∀ a : Half, ∃ row ∈ regionTable, row.2.1 ≤ a.toNat ∧ a.toNat < row.2.2 ∧
    decodeAddr a = (row.1, a.toNat - row.2.1) ∧
    ∀ row' ∈ regionTable, row'.2.1 ≤ a.toNat → a.toNat < row'.2.2 → row' = row

/-- R84: READ8 responds with the byte and changes nothing else, at every address; what the byte is in each region is R84's
list of corner cases (echo D19, unusable D18, I/O mask D12). -/
def Obligations.Read8RespondsTheRegionsByte : Prop :=
  ∀ (s : State) (a : Half),
    exec (.read8 a) s = .next { s with responses := s.responses ++ [.value (zextByte (s.byteAt a))] } ∧
    (a.toNat < 0x4000 → s.byteAt a = s.storeByte .rom0 a.toNat) ∧
    (0x4000 ≤ a.toNat → a.toNat < 0x8000 → s.byteAt a = s.storeByte .romx (a.toNat - 0x4000)) ∧
    (0x8000 ≤ a.toNat → a.toNat < 0xA000 → s.byteAt a = s.storeByte .vram (a.toNat - 0x8000)) ∧
    (0xA000 ≤ a.toNat → a.toNat < 0xC000 → s.byteAt a = s.storeByte .eram (a.toNat - 0xA000)) ∧
    (0xC000 ≤ a.toNat → a.toNat < 0xD000 → s.byteAt a = s.storeByte .wram0 (a.toNat - 0xC000)) ∧
    (0xD000 ≤ a.toNat → a.toNat < 0xE000 → s.byteAt a = s.storeByte .wramx (a.toNat - 0xD000)) ∧
    (0xE000 ≤ a.toNat → a.toNat < 0xFE00 → s.byteAt a = s.byteAt (a - 0x2000#16)) ∧
    (0xFE00 ≤ a.toNat → a.toNat < 0xFEA0 → s.byteAt a = s.storeByte .oam (a.toNat - 0xFE00)) ∧
    (0xFEA0 ≤ a.toNat → a.toNat < 0xFF00 → s.byteAt a = 0x00#8) ∧
    (0xFF00 ≤ a.toNat → a.toNat < 0xFF80 →
      s.byteAt a = s.storeByte .io (a.toNat - 0xFF00) ||| ioReadOrMask (a.toNat - 0xFF00)) ∧
    (0xFF80 ≤ a.toNat → a.toNat < 0xFFFF → s.byteAt a = s.storeByte .hram (a.toNat - 0xFF80)) ∧
    (a.toNat = 0xFFFF → s.byteAt a = s.storeByte .ie 0)

/-- R86, R67, D12, D13, D19, D20: WRITE8 stores the byte where its address reaches, if a write stores there, and changes
nothing else. -/
def Obligations.Write8StoresOneByte : Prop :=
  ∀ (s : State) (a : Half) (b : Byte), ∃ t : State,
    exec (.write8 a b) s = .next t ∧
    t = { s with mem := t.mem, responses := s.responses ++ [.done] } ∧
    (Writable a → ∀ x, reach x = reach a → t.byteAt x = b) ∧
    (∀ x, ¬ (Writable a ∧ reach x = reach a) → t.byteAt x = s.byteAt x)

/-- R43: a write to the ROM range changes nothing and emits nothing. -/
def Obligations.RomWriteChangesNothing : Prop :=
  ∀ (s : State) (a : Half) (b : Byte), a.toNat < 0x8000 →
    write8 a b s = s ∧ romWrite s.variant a b s = s ∧
    exec (.write8 a b) s = .next { s with responses := s.responses ++ [.done] }

/-- R46, D19: an echo access is the same access at `a - 0x2000`, and 0xDE00-0xDFFF has no other address. -/
def Obligations.EchoMirrorsWorkRam : Prop :=
  (∀ (s : State) (a : Half) (b : Byte), 0xE000 ≤ a.toNat → a.toNat < 0xFE00 →
    s.byteAt a = s.byteAt (a - 0x2000#16) ∧ write8 a b s = write8 (a - 0x2000#16) b s) ∧
  (∀ a x : Half, 0xDE00 ≤ a.toNat → a.toNat < 0xE000 → reach x = reach a → x = a)

/-- R47, R121, D18: the unusable range reads 0, drops writes and says nothing. -/
def Obligations.UnusableRangeIsInert : Prop :=
  ∀ (s : State) (a : Half) (b : Byte), 0xFEA0 ≤ a.toNat → a.toNat < 0xFF00 →
    exec (.read8 a) s = .next { s with responses := s.responses ++ [.value 0x0000#16] } ∧
    exec (.write8 a b) s = .next { s with responses := s.responses ++ [.done] }

/-- R51-R53, D20: for any set of implemented regions, an access to a region outside it, but the unusable one, reads 0 or
changes no store, and emits the advisory event. Where the echo is implemented, an echo access is the same access at
`a - 0x2000`, so it degrades in that way where the work RAM region it reaches is not implemented. -/
def Obligations.UnimplementedRegionDegrades : Prop :=
  ∀ (impl : Region → Bool) (s : State) (a : Half) (b : Byte),
    (impl (decodeAddr a).1 = false → (decodeAddr a).1 ≠ .unusable →
      readByteWith impl a s = (0x00#8, { s with diag := s.diag ++ [(.warning, .unimplementedRegion)] }) ∧
      writeByteWith impl a b s = { s with diag := s.diag ++ [(.warning, .unimplementedRegion)] }) ∧
    ((decodeAddr a).1 = .echo → impl .echo = true →
      readByteWith impl a s = readByteWith impl (a - 0x2000#16) s ∧
      writeByteWith impl a b s = writeByteWith impl (a - 0x2000#16) b s) ∧
    ((decodeAddr a).1 = .echo → impl .echo = true → ∀ so, reach a = some so → impl so.1.region = false →
      readByteWith impl a s = (0x00#8, { s with diag := s.diag ++ [(.warning, .unimplementedRegion)] }) ∧
      writeByteWith impl a b s = { s with diag := s.diag ++ [(.warning, .unimplementedRegion)] })

/-- R85, R59: outside the guard READ16 responds with the byte at `a + 1` above the byte at `a`, each read in its own region; no
address wraps. D15, D16. -/
def Obligations.Read16ComposesTwoBytes : Prop :=
  ∀ (s : State) (a : Half), a ≠ 0xFFFE#16 → a ≠ 0xFFFF#16 →
    exec (.read16 a) s =
      .next { s with responses := s.responses ++ [.value (joinBytes (s.byteAt (a + 1#16)) (s.byteAt a))] } ∧
    (a + 1#16).toNat = a.toNat + 1

/-- R87: outside the guard WRITE16 stores each byte of its datum where that byte's address reaches, if a write stores there,
and changes nothing else. D12, D15, D16, D17. -/
def Obligations.Write16StoresTwoBytes : Prop :=
  ∀ (s : State) (a v : Half), a ≠ 0xFFFE#16 → a ≠ 0xFFFF#16 → ∃ t : State,
    exec (.write16 a v) s = .next t ∧
    t = { s with mem := t.mem, responses := s.responses ++ [.done] } ∧
    (Writable a → ∀ x, reach x = reach a → t.byteAt x = lowByte v) ∧
    (Writable (a + 1#16) → ∀ x, reach x = reach (a + 1#16) → t.byteAt x = highByte v) ∧
    (∀ x, ¬ (Writable a ∧ reach x = reach a) → ¬ (Writable (a + 1#16) ∧ reach x = reach (a + 1#16)) →
      t.byteAt x = s.byteAt x)

/-- R54: the low byte of a 16-bit value is at `a` and the high byte at `a + 1`, for READ16 as for WRITE16. The guarded
addresses are R55's (LatchAccessEntersFault). -/
def Obligations.SixteenBitAccessIsLittleEndian : Prop :=
  ∀ (s : State) (a : Half), latchGuard a = false →
    (∃ v, exec (.read16 a) s = .next { s with responses := s.responses ++ [.value v] } ∧
      lowByte v = (read8 a s).1 ∧ highByte v = (read8 (a + 1#16) s).1) ∧
    (∀ v, exec (.write16 a v) s = .next ((write8 (a + 1#16) (highByte v) (write8 a (lowByte v) s)).respond .done))

/-- R55, R116, D15, D26: READ16 and WRITE16 at 0xFFFE and 0xFFFF enter the fault before any byte moves: `faulted`, the fatal
event and the Fault response, and nothing else. -/
def Obligations.LatchAccessEntersFault : Prop :=
  ∀ (s : State) (a v : Half), a = 0xFFFE#16 ∨ a = 0xFFFF#16 →
    exec (.read16 a) s =
      .next { s with faulted := some .ie16Access, diag := s.diag ++ [(.fatal, .fatal .ie16Access)]
                     responses := s.responses ++ [.fault .ie16Access] } ∧
    exec (.write16 a v) s =
      .next { s with faulted := some .ie16Access, diag := s.diag ++ [(.fatal, .fatal .ie16Access)]
                     responses := s.responses ++ [.fault .ie16Access] }

/-- C4: a READ16 after a WRITE16 gives the datum back when both bytes lie in one RAM-class region (I/O with the zero mask,
D12). -/
def Obligations.Write16ThenRead16RoundTrip : Prop :=
  ∀ (s : State) (a v : Half),
    (decodeAddr a).1 ∈ [Region.vram, .eram, .wram0, .wramx, .echo, .oam, .hram, .io] →
    (decodeAddr (a + 1#16)).1 = (decodeAddr a).1 →
      ∃ t : State, exec (.write16 a v) s = .next t ∧
        exec (.read16 a) t = .next { t with responses := t.responses ++ [.value v] }

/-! ## The register file -/

/-- R18: the low lane of AF, bits 7:0 of the pair AF and the value of READ_FLAGS are the same eight bits. -/
def Obligations.FlagsAreTheLowLaneOfAF : Prop :=
  ∀ s : State, s.lane .af .lo = lowByte (s.pair .af) ∧
    exec .readFlags s = .next { s with responses := s.responses ++ [.value (zextByte (s.lane .af .lo))] }

/-- R15: reading a pair gives its lanes, the high one above the low one; READ_PAIR responds with it and changes nothing
else. -/
def Obligations.ReadPairRespondsBothLanes : Prop :=
  ∀ (s : State) (p : Pair),
    s.pair p = ((s.lane p .hi).setWidth 16 <<< 8) ||| (s.lane p .lo).setWidth 16 ∧
    exec (.readPair p) s =
      .next { s with responses := s.responses ++
        [.value (((s.lane p .hi).setWidth 16 <<< 8) ||| (s.lane p .lo).setWidth 16)] }

/-- R89, D8, D9: WRITE_PAIR stores both lanes, AF through the flag mask, and changes no other lane and nothing else. -/
def Obligations.WritePairStoresBothLanes : Prop :=
  ∀ (s : State) (p : Pair) (v : Half), ∃ t : State,
    exec (.writePair p v) s = .next t ∧
    t = { s with lanes := t.lanes, responses := s.responses ++ [.done] } ∧
    t.pair p = (if p = .af then v &&& 0xFFF8#16 else v) ∧
    (∀ q l, q ≠ p → t.lane q l = s.lane q l)

/-- R90: READ_BYTE responds with one lane, zero-extended, and changes nothing else; after a pair write the lanes are the
pair's bytes, AF's low one masked to 0xF8 (D9); in every state with F clean (R19, an invariant) F and the pair AF have bits 2:0
zero. -/
def Obligations.ReadByteRespondsOneLane : Prop :=
  ∀ (s : State) (p : Pair) (l : Lane),
    exec (.readByte p l) s = .next { s with responses := s.responses ++ [.value ((s.lane p l).setWidth 16)] } ∧
    (∀ v, (s.writePair p v).lane p .hi = highByte v ∧
      (s.writePair p v).lane p .lo = (if p = .af then lowByte v &&& 0xF8#8 else lowByte v)) ∧
    (s.flagsClean → s.lane .af .lo &&& 0x07#8 = 0#8 ∧ s.pair .af &&& 0x0007#16 = 0#16)

/-- R91, D8, D9: WRITE_BYTE stores one lane, F through the flag mask, and changes no other lane and nothing else. -/
def Obligations.WriteByteStoresOneLane : Prop :=
  ∀ (s : State) (p : Pair) (l : Lane) (b : Byte), ∃ t : State,
    exec (.writeByte p l b) s = .next t ∧
    t = { s with lanes := t.lanes, responses := s.responses ++ [.done] } ∧
    t.lane p l = (if p = .af ∧ l = .lo then b &&& 0xF8#8 else b) ∧
    (∀ q l', ¬ (q = p ∧ l' = l) → t.lane q l' = s.lane q l')

/-- After R17: a write to a lane changes no other lane, no other pair, PC, SP or memory. WRITE_BYTE is the write of one lane,
and WRITE_FLAGS is that write to the low lane of AF, since both take the same mask (D8, log 6). -/
def Obligations.LaneWriteLeavesTheRestAlone : Prop :=
  ∀ (s : State) (p : Pair) (l : Lane) (b : Byte),
    (∃ t : State, exec (.writeByte p l b) s = .next t ∧
      (∀ l', l' ≠ l → t.lane p l' = s.lane p l') ∧
      (∀ q l', q ≠ p → t.lane q l' = s.lane q l') ∧ (∀ q, q ≠ p → t.pair q = s.pair q) ∧
      t.pc = s.pc ∧ t.sp = s.sp ∧ ∀ a, t.byteAt a = s.byteAt a) ∧
    exec (.writeFlags b) s = exec (.writeByte .af .lo b) s

/-- R92, R93, D8, D9, D39: READ_FLAGS responds with F; WRITE_FLAGS keeps the four named flags and bit 3, clears bits 2:0, and
leaves register A, every other pair and everything else alone. -/
def Obligations.FlagCommandsReadAndWriteF : Prop :=
  ∀ (s : State) (f : Byte),
    exec .readFlags s = .next { s with responses := s.responses ++ [.value (zextByte s.flags)] } ∧
    ∃ t : State, exec (.writeFlags f) s = .next t ∧
      t = { s with lanes := t.lanes, responses := s.responses ++ [.done] } ∧
      t.flags = f &&& 0xF8#8 ∧
      flagZ t.flags = f.getLsbD 7 ∧ flagN t.flags = f.getLsbD 6 ∧ flagH t.flags = f.getLsbD 5 ∧
      flagC t.flags = f.getLsbD 4 ∧ t.flags.getLsbD 3 = f.getLsbD 3 ∧ t.flags &&& 0x07#8 = 0#8 ∧
      t.lane .af .hi = s.lane .af .hi ∧ (∀ q l, q ≠ .af → t.lane q l = s.lane q l)

/-- R94, R95, D7, D36: READ_PC responds with PC; WRITE_PC stores any value; neither changes anything else. -/
def Obligations.PcCommandsReadAndWritePc : Prop :=
  ∀ (s : State) (v : Half),
    exec .readPc s = .next { s with responses := s.responses ++ [.value s.pc] } ∧
    exec (.writePc v) s = .next { s with pc := v, responses := s.responses ++ [.done] }

/-- R96, R97, D7, D36: READ_SP responds with SP; WRITE_SP stores any value; neither changes anything else. -/
def Obligations.SpCommandsReadAndWriteSp : Prop :=
  ∀ (s : State) (v : Half),
    exec .readSp s = .next { s with responses := s.responses ++ [.value s.sp] } ∧
    exec (.writeSp v) s = .next { s with sp := v, responses := s.responses ++ [.done] }

/-! ## Lifecycle -/

/-- R102, R103, D9-D11, D28: RESET on a Ready block sets PC, SP and the four pairs, gives each address of the reset table its
value, appends its two events, and changes nothing else. Register and table values: log 7. -/
def Obligations.ResetRestoresThePostBootState : Prop :=
  ∀ s : State, s.life = .ready → ∃ t : State,
    exec .reset s = .next t ∧
    t.pc = 0x0000#16 ∧ t.sp = 0xFFFE#16 ∧
    t.pair .af = 0x01B0#16 ∧ t.pair .bc = 0x0013#16 ∧ t.pair .de = 0x00D8#16 ∧ t.pair .hl = 0x014D#16 ∧
    (∀ e ∈ resetIoTable, t.byteAt e.1 = e.2) ∧
    (∀ x, (∀ e ∈ resetIoTable, e.1 ≠ x) → t.byteAt x = s.byteAt x) ∧
    t = { s with pc := t.pc, sp := t.sp, lanes := t.lanes, mem := t.mem
                 diag := s.diag ++ [(.info, .resetting), (.info, .finishedResetting)]
                 responses := s.responses ++ [.done] }

/-- R104: two RESETs leave the state one leaves, but for the events and the responses. Memory is taken in canonical form, which
every step keeps (EveryStepKeepsInvariant). -/
def Obligations.ResetIsIdempotent : Prop :=
  ∀ s : State, s.life = .ready → s.mem.wf → ∃ t : State,
    exec .reset s = .next t ∧
    exec .reset t =
      .next { t with diag := t.diag ++ [(.info, .resetting), (.info, .finishedResetting)]
                     responses := t.responses ++ [.done] }

/-- R105, D40: a reset with no controller enters Fatal(ResetNoController) and resets nothing. -/
def Obligations.ResetWithNoControllerIsFatal : Prop :=
  ∀ s : State, s.life = .unloaded →
    exec .reset s =
      .next { s with faulted := some .resetNoController, diag := s.diag ++ [(.fatal, .fatal .resetNoController)]
                     responses := s.responses ++ [.fault .resetNoController] }

/-- R98, R100, R130, D11, D22, D23, D25: CONSTRUCT of an image with a header of type 0x00 gives a Ready block whose ROM reads the
image's bytes, or the block's draw beyond them (log 3), whose other stores read zero but for the reset table, whose registers are
the post-boot ones (log 7), and whose events are the size advisory, if the sizes differ, and the reset's two. -/
def Obligations.ConstructBuildsReadyBlock : Prop :=
  ∀ (s : State) (img : List Byte), 0x149 ≤ img.length → img[0x147]? = some 0x00#8 → ∃ t : State,
    construct (.image img) s = .next t ∧
    t.life = .ready ∧ t.faulted = none ∧ t.variant = .noMBC ∧ t.mem.wf ∧
    (∀ a : Half, a.toNat < 0x8000 → t.byteAt a = (img[a.toNat]?).getD (Config.romFill t.romDraw a.toNat)) ∧
    (∀ e ∈ resetIoTable, t.byteAt e.1 = e.2) ∧
    (∀ a : Half, 0x8000 ≤ a.toNat → (∀ e ∈ resetIoTable, e.1 ≠ a) → t.byteAt a = 0x00#8) ∧
    t.pc = 0x0000#16 ∧ t.sp = 0xFFFE#16 ∧
    t.pair .af = 0x01B0#16 ∧ t.pair .bc = 0x0013#16 ∧ t.pair .de = 0x00D8#16 ∧ t.pair .hl = 0x014D#16 ∧
    t.diag =
      (if 32768 * 2 ^ (img.getD 0x148 0#8).toNat = img.length then [] else [(.warning, .romSizeMismatch)]) ++
        [(.info, .resetting), (.info, .finishedResetting)]

/-- R98, R101, R118, D22, D24: the other outcomes of CONSTRUCT, in their order. -/
def Obligations.ConstructStopsInOrder : Prop :=
  ∀ s : State,
    construct .openFailed s = .fault .cartOpenFailed ∧
    (∀ img, img.length < 0x149 → construct (.image img) s = .refused .headerMissing) ∧
    (∀ img t, 0x149 ≤ img.length → img[0x147]? = some t → t ≠ 0x00#8 →
      construct (.image img) s = .refused .variantNotSpecified)

/-- R29, R130: the reset table, row by row, and the reset state. Register and table values log 7; no cartridge and no size advisory log 4. -/
def Obligations.ResetStateHoldsThePostBootValues : Prop :=
  State.reset.life = .ready ∧ State.reset.faulted = none ∧ State.reset.variant = .noMBC ∧
  State.reset.pc = 0x0000#16 ∧ State.reset.sp = 0xFFFE#16 ∧
  State.reset.pair .af = 0x01B0#16 ∧ State.reset.pair .bc = 0x0013#16 ∧
  State.reset.pair .de = 0x00D8#16 ∧ State.reset.pair .hl = 0x014D#16 ∧
  resetIoTable =
    [ (0xFF05#16, 0x00#8), (0xFF06#16, 0x00#8), (0xFF07#16, 0x00#8), (0xFF10#16, 0x80#8), (0xFF11#16, 0xBF#8),
      (0xFF12#16, 0xF3#8), (0xFF14#16, 0xBF#8), (0xFF16#16, 0x3F#8), (0xFF17#16, 0x00#8), (0xFF19#16, 0xBF#8),
      (0xFF1A#16, 0x7F#8), (0xFF1B#16, 0xFF#8), (0xFF1C#16, 0x9F#8), (0xFF1E#16, 0xBF#8), (0xFF20#16, 0xFF#8),
      (0xFF21#16, 0x00#8), (0xFF22#16, 0x00#8), (0xFF23#16, 0xBF#8), (0xFF24#16, 0x77#8), (0xFF25#16, 0xF3#8),
      (0xFF26#16, 0xF1#8), (0xFF40#16, 0x91#8), (0xFF42#16, 0x00#8), (0xFF43#16, 0x00#8), (0xFF45#16, 0x00#8),
      (0xFF47#16, 0xFC#8), (0xFF48#16, 0xFF#8), (0xFF49#16, 0xFF#8), (0xFF4A#16, 0x00#8), (0xFF4B#16, 0x00#8),
      (0xFFFF#16, 0x00#8) ] ∧
  (∀ e ∈ resetIoTable, State.reset.byteAt e.1 = e.2) ∧
  (∀ a : Half, 0x8000 ≤ a.toNat → (∀ e ∈ resetIoTable, e.1 ≠ a) → State.reset.byteAt a = 0x00#8) ∧
  State.reset.diag = [(.info, .resetting), (.info, .finishedResetting)]

/-! ## Opcode metadata -/

/-- R108, D32: LOOKUP responds with the opcode's record and changes nothing else. -/
def Obligations.LookupRespondsTheRecord : Prop :=
  ∀ (s : State) (op : Byte),
    exec (.lookup op) s = .next { s with responses := s.responses ++ [.record (opcodeMeta op)] }

/-- R107, R109, R110, R112, D32: every record has a length of 1 to 3 bytes, long cycles exactly on the conditional opcodes and
never below the base cycles, and the unused opcodes carry the sentinel record. The two opcode sets are R112's lists, general
knowledge (PRESUMED, log 12). -/
def Obligations.OpcodeTableKeepsItsLimits : Prop :=
  conditionalOpcodes =
    [ 0x20#8, 0x28#8, 0x30#8, 0x38#8, 0xC2#8, 0xCA#8, 0xD2#8, 0xDA#8,
      0xC4#8, 0xCC#8, 0xD4#8, 0xDC#8, 0xC0#8, 0xC8#8, 0xD0#8, 0xD8#8 ] ∧
  unusedOpcodes =
    [ 0xD3#8, 0xDB#8, 0xDD#8, 0xE3#8, 0xE4#8, 0xEB#8, 0xEC#8, 0xED#8, 0xF4#8, 0xFC#8, 0xFD#8 ] ∧
  ∀ op : Byte,
    (1 ≤ (opcodeMeta op).length ∧ (opcodeMeta op).length ≤ 3) ∧
    ((opcodeMeta op).longCycles.isSome = true ↔ op ∈ conditionalOpcodes) ∧
    (∀ n, (opcodeMeta op).longCycles = some n → (opcodeMeta op).baseCycles ≤ n) ∧
    (op ∈ unusedOpcodes → opcodeMeta op = sentinelRecord)

/-- R112, D32 (general knowledge: PRESUMED, log 12): a supplied table and sentinel pass the check exactly when the sixteen
conditional opcodes cost what R112's table says, no other opcode has long cycles, and the unused opcodes, and no others, carry
the sentinel. -/
def Obligations.R112CheckMeansItsFacts : Prop :=
  ∀ (table : Byte → OpcodeRecord) (sentinel : OpcodeRecord),
    passesR112 table sentinel = true ↔
      (∀ op ∈ [0x20#8, 0x28#8, 0x30#8, 0x38#8],
        (table op).length = 2 ∧ (table op).baseCycles = 8 ∧ (table op).longCycles = some 12) ∧
      (∀ op ∈ [0xC2#8, 0xCA#8, 0xD2#8, 0xDA#8],
        (table op).length = 3 ∧ (table op).baseCycles = 12 ∧ (table op).longCycles = some 16) ∧
      (∀ op ∈ [0xC4#8, 0xCC#8, 0xD4#8, 0xDC#8],
        (table op).length = 3 ∧ (table op).baseCycles = 12 ∧ (table op).longCycles = some 24) ∧
      (∀ op ∈ [0xC0#8, 0xC8#8, 0xD0#8, 0xD8#8],
        (table op).length = 1 ∧ (table op).baseCycles = 8 ∧ (table op).longCycles = some 20) ∧
      (∀ op, (table op).longCycles.isSome = true ↔ op ∈ conditionalOpcodes) ∧
      (∀ op, table op = sentinel ↔ op ∈ unusedOpcodes)

/-! ## The end of a run -/

/-- R136: a run ends well exactly when the requester has stopped (an empty inbox, log 1) on a Ready block that is not faulted;
such a block then stays as it is (log 16). -/
def Obligations.RunEndsWellWhenRequesterStops : Prop :=
  ∀ s : State,
    (s.endsWell = true ↔ s.life = .ready ∧ s.faulted = none ∧ s.inbox = []) ∧
    (s.endsWell = true → step s = .next s)
end

