-- ==== Sys2Proof/Laws/State.lean ====
section
/-! SUPPORT. One lemma per field per update of State, so that no later proof unfolds a record update. -/

namespace Sys2Proof.Machine

variable (s : State)

/-! `State.respond` -/

@[simp] theorem State.respond_life (r : Response) : (s.respond r).life = s.life := rfl
@[simp] theorem State.respond_faulted (r : Response) : (s.respond r).faulted = s.faulted := rfl
@[simp] theorem State.respond_variant (r : Response) : (s.respond r).variant = s.variant := rfl
@[simp] theorem State.respond_lanes (r : Response) : (s.respond r).lanes = s.lanes := rfl
@[simp] theorem State.respond_pc (r : Response) : (s.respond r).pc = s.pc := rfl
@[simp] theorem State.respond_sp (r : Response) : (s.respond r).sp = s.sp := rfl
@[simp] theorem State.respond_mem (r : Response) : (s.respond r).mem = s.mem := rfl
@[simp] theorem State.respond_diag (r : Response) : (s.respond r).diag = s.diag := rfl
@[simp] theorem State.respond_romDraw (r : Response) : (s.respond r).romDraw = s.romDraw := rfl
@[simp] theorem State.respond_responses (r : Response) : (s.respond r).responses = s.responses ++ [r] := rfl
@[simp] theorem State.respond_inbox (r : Response) : (s.respond r).inbox = s.inbox := rfl

/-! `State.emit` -/

@[simp] theorem State.emit_life (v : Severity) (k : EventKind) : (s.emit v k).life = s.life := rfl
@[simp] theorem State.emit_faulted (v : Severity) (k : EventKind) : (s.emit v k).faulted = s.faulted := rfl
@[simp] theorem State.emit_variant (v : Severity) (k : EventKind) : (s.emit v k).variant = s.variant := rfl
@[simp] theorem State.emit_lanes (v : Severity) (k : EventKind) : (s.emit v k).lanes = s.lanes := rfl
@[simp] theorem State.emit_pc (v : Severity) (k : EventKind) : (s.emit v k).pc = s.pc := rfl
@[simp] theorem State.emit_sp (v : Severity) (k : EventKind) : (s.emit v k).sp = s.sp := rfl
@[simp] theorem State.emit_mem (v : Severity) (k : EventKind) : (s.emit v k).mem = s.mem := rfl
@[simp] theorem State.emit_diag (v : Severity) (k : EventKind) : (s.emit v k).diag = s.diag ++ [(v, k)] := rfl
@[simp] theorem State.emit_romDraw (v : Severity) (k : EventKind) : (s.emit v k).romDraw = s.romDraw := rfl
@[simp] theorem State.emit_responses (v : Severity) (k : EventKind) : (s.emit v k).responses = s.responses := rfl
@[simp] theorem State.emit_inbox (v : Severity) (k : EventKind) : (s.emit v k).inbox = s.inbox := rfl

/-! `State.setCell` -/

@[simp] theorem State.setCell_life (k : Nat) (v : Byte) : (s.setCell k v).life = s.life := rfl
@[simp] theorem State.setCell_faulted (k : Nat) (v : Byte) : (s.setCell k v).faulted = s.faulted := rfl
@[simp] theorem State.setCell_variant (k : Nat) (v : Byte) : (s.setCell k v).variant = s.variant := rfl
@[simp] theorem State.setCell_lanes (k : Nat) (v : Byte) : (s.setCell k v).lanes = s.lanes := rfl
@[simp] theorem State.setCell_pc (k : Nat) (v : Byte) : (s.setCell k v).pc = s.pc := rfl
@[simp] theorem State.setCell_sp (k : Nat) (v : Byte) : (s.setCell k v).sp = s.sp := rfl
@[simp] theorem State.setCell_mem (k : Nat) (v : Byte) : (s.setCell k v).mem = s.mem.set k v := rfl
@[simp] theorem State.setCell_diag (k : Nat) (v : Byte) : (s.setCell k v).diag = s.diag := rfl
@[simp] theorem State.setCell_romDraw (k : Nat) (v : Byte) : (s.setCell k v).romDraw = s.romDraw := rfl
@[simp] theorem State.setCell_responses (k : Nat) (v : Byte) : (s.setCell k v).responses = s.responses := rfl
@[simp] theorem State.setCell_inbox (k : Nat) (v : Byte) : (s.setCell k v).inbox = s.inbox := rfl

/-! `State.setStoreByte` -/

@[simp] theorem State.setStoreByte_life (st : Store) (off : Nat) (v : Byte) : (s.setStoreByte st off v).life = s.life := rfl
@[simp] theorem State.setStoreByte_faulted (st : Store) (off : Nat) (v : Byte) : (s.setStoreByte st off v).faulted = s.faulted := rfl
@[simp] theorem State.setStoreByte_variant (st : Store) (off : Nat) (v : Byte) : (s.setStoreByte st off v).variant = s.variant := rfl
@[simp] theorem State.setStoreByte_lanes (st : Store) (off : Nat) (v : Byte) : (s.setStoreByte st off v).lanes = s.lanes := rfl
@[simp] theorem State.setStoreByte_pc (st : Store) (off : Nat) (v : Byte) : (s.setStoreByte st off v).pc = s.pc := rfl
@[simp] theorem State.setStoreByte_sp (st : Store) (off : Nat) (v : Byte) : (s.setStoreByte st off v).sp = s.sp := rfl
@[simp] theorem State.setStoreByte_mem (st : Store) (off : Nat) (v : Byte) : (s.setStoreByte st off v).mem = s.mem.set (st.base + off) v := rfl
@[simp] theorem State.setStoreByte_diag (st : Store) (off : Nat) (v : Byte) : (s.setStoreByte st off v).diag = s.diag := rfl
@[simp] theorem State.setStoreByte_romDraw (st : Store) (off : Nat) (v : Byte) : (s.setStoreByte st off v).romDraw = s.romDraw := rfl
@[simp] theorem State.setStoreByte_responses (st : Store) (off : Nat) (v : Byte) : (s.setStoreByte st off v).responses = s.responses := rfl
@[simp] theorem State.setStoreByte_inbox (st : Store) (off : Nat) (v : Byte) : (s.setStoreByte st off v).inbox = s.inbox := rfl

/-! `State.writeFlags` -/

@[simp] theorem State.writeFlags_life (b : Byte) : (s.writeFlags b).life = s.life := rfl
@[simp] theorem State.writeFlags_faulted (b : Byte) : (s.writeFlags b).faulted = s.faulted := rfl
@[simp] theorem State.writeFlags_variant (b : Byte) : (s.writeFlags b).variant = s.variant := rfl
@[simp] theorem State.writeFlags_lanes (b : Byte) : (s.writeFlags b).lanes = { s.lanes with af := { s.lanes.af with lo := maskFlags b } } := rfl
@[simp] theorem State.writeFlags_pc (b : Byte) : (s.writeFlags b).pc = s.pc := rfl
@[simp] theorem State.writeFlags_sp (b : Byte) : (s.writeFlags b).sp = s.sp := rfl
@[simp] theorem State.writeFlags_mem (b : Byte) : (s.writeFlags b).mem = s.mem := rfl
@[simp] theorem State.writeFlags_diag (b : Byte) : (s.writeFlags b).diag = s.diag := rfl
@[simp] theorem State.writeFlags_romDraw (b : Byte) : (s.writeFlags b).romDraw = s.romDraw := rfl
@[simp] theorem State.writeFlags_responses (b : Byte) : (s.writeFlags b).responses = s.responses := rfl
@[simp] theorem State.writeFlags_inbox (b : Byte) : (s.writeFlags b).inbox = s.inbox := rfl

/-! `raiseFatal` -/

@[simp] theorem raiseFatal_life (k : FatalKind) : (raiseFatal k s).life = s.life := rfl
@[simp] theorem raiseFatal_faulted (k : FatalKind) : (raiseFatal k s).faulted = some k := rfl
@[simp] theorem raiseFatal_variant (k : FatalKind) : (raiseFatal k s).variant = s.variant := rfl
@[simp] theorem raiseFatal_lanes (k : FatalKind) : (raiseFatal k s).lanes = s.lanes := rfl
@[simp] theorem raiseFatal_pc (k : FatalKind) : (raiseFatal k s).pc = s.pc := rfl
@[simp] theorem raiseFatal_sp (k : FatalKind) : (raiseFatal k s).sp = s.sp := rfl
@[simp] theorem raiseFatal_mem (k : FatalKind) : (raiseFatal k s).mem = s.mem := rfl
@[simp] theorem raiseFatal_diag (k : FatalKind) : (raiseFatal k s).diag = s.diag ++ [(.fatal, .fatal k)] := rfl
@[simp] theorem raiseFatal_romDraw (k : FatalKind) : (raiseFatal k s).romDraw = s.romDraw := rfl
@[simp] theorem raiseFatal_responses (k : FatalKind) : (raiseFatal k s).responses = s.responses ++ [.fault k] := rfl
@[simp] theorem raiseFatal_inbox (k : FatalKind) : (raiseFatal k s).inbox = s.inbox := rfl

/-! Lane updates change `lanes` and nothing else. -/

@[simp] theorem State.setLanePair_life (p : Pair) (x : LanePair) : (s.setLanePair p x).life = s.life := by cases p <;> rfl
@[simp] theorem State.setLanePair_faulted (p : Pair) (x : LanePair) : (s.setLanePair p x).faulted = s.faulted := by cases p <;> rfl
@[simp] theorem State.setLanePair_variant (p : Pair) (x : LanePair) : (s.setLanePair p x).variant = s.variant := by cases p <;> rfl
@[simp] theorem State.setLanePair_pc (p : Pair) (x : LanePair) : (s.setLanePair p x).pc = s.pc := by cases p <;> rfl
@[simp] theorem State.setLanePair_sp (p : Pair) (x : LanePair) : (s.setLanePair p x).sp = s.sp := by cases p <;> rfl
@[simp] theorem State.setLanePair_mem (p : Pair) (x : LanePair) : (s.setLanePair p x).mem = s.mem := by cases p <;> rfl
@[simp] theorem State.setLanePair_diag (p : Pair) (x : LanePair) : (s.setLanePair p x).diag = s.diag := by cases p <;> rfl
@[simp] theorem State.setLanePair_romDraw (p : Pair) (x : LanePair) : (s.setLanePair p x).romDraw = s.romDraw := by cases p <;> rfl
@[simp] theorem State.setLanePair_responses (p : Pair) (x : LanePair) : (s.setLanePair p x).responses = s.responses := by cases p <;> rfl
@[simp] theorem State.setLanePair_inbox (p : Pair) (x : LanePair) : (s.setLanePair p x).inbox = s.inbox := by cases p <;> rfl

@[simp] theorem State.writeLane_life (p : Pair) (l : Lane) (b : Byte) : (s.writeLane p l b).life = s.life := by
  cases l <;> simp [State.writeLane]
@[simp] theorem State.writeLane_faulted (p : Pair) (l : Lane) (b : Byte) : (s.writeLane p l b).faulted = s.faulted := by
  cases l <;> simp [State.writeLane]
@[simp] theorem State.writeLane_variant (p : Pair) (l : Lane) (b : Byte) : (s.writeLane p l b).variant = s.variant := by
  cases l <;> simp [State.writeLane]
@[simp] theorem State.writeLane_pc (p : Pair) (l : Lane) (b : Byte) : (s.writeLane p l b).pc = s.pc := by
  cases l <;> simp [State.writeLane]
@[simp] theorem State.writeLane_sp (p : Pair) (l : Lane) (b : Byte) : (s.writeLane p l b).sp = s.sp := by
  cases l <;> simp [State.writeLane]
@[simp] theorem State.writeLane_mem (p : Pair) (l : Lane) (b : Byte) : (s.writeLane p l b).mem = s.mem := by
  cases l <;> simp [State.writeLane]
@[simp] theorem State.writeLane_diag (p : Pair) (l : Lane) (b : Byte) : (s.writeLane p l b).diag = s.diag := by
  cases l <;> simp [State.writeLane]
@[simp] theorem State.writeLane_romDraw (p : Pair) (l : Lane) (b : Byte) : (s.writeLane p l b).romDraw = s.romDraw := by
  cases l <;> simp [State.writeLane]
@[simp] theorem State.writeLane_responses (p : Pair) (l : Lane) (b : Byte) : (s.writeLane p l b).responses = s.responses := by
  cases l <;> simp [State.writeLane]
@[simp] theorem State.writeLane_inbox (p : Pair) (l : Lane) (b : Byte) : (s.writeLane p l b).inbox = s.inbox := by
  cases l <;> simp [State.writeLane]

@[simp] theorem State.writePair_life (p : Pair) (v : Half) : (s.writePair p v).life = s.life := by
  simp [State.writePair]
@[simp] theorem State.writePair_faulted (p : Pair) (v : Half) : (s.writePair p v).faulted = s.faulted := by
  simp [State.writePair]
@[simp] theorem State.writePair_variant (p : Pair) (v : Half) : (s.writePair p v).variant = s.variant := by
  simp [State.writePair]
@[simp] theorem State.writePair_pc (p : Pair) (v : Half) : (s.writePair p v).pc = s.pc := by
  simp [State.writePair]
@[simp] theorem State.writePair_sp (p : Pair) (v : Half) : (s.writePair p v).sp = s.sp := by
  simp [State.writePair]
@[simp] theorem State.writePair_mem (p : Pair) (v : Half) : (s.writePair p v).mem = s.mem := by
  simp [State.writePair]
@[simp] theorem State.writePair_diag (p : Pair) (v : Half) : (s.writePair p v).diag = s.diag := by
  simp [State.writePair]
@[simp] theorem State.writePair_romDraw (p : Pair) (v : Half) : (s.writePair p v).romDraw = s.romDraw := by
  simp [State.writePair]
@[simp] theorem State.writePair_responses (p : Pair) (v : Half) : (s.writePair p v).responses = s.responses := by
  simp [State.writePair]
@[simp] theorem State.writePair_inbox (p : Pair) (v : Half) : (s.writePair p v).inbox = s.inbox := by
  simp [State.writePair]

/-! What reads of memory depend on. -/

theorem State.cell_congr {s t : State} (hm : t.mem = s.mem) (hd : t.romDraw = s.romDraw) (k : Nat) : t.cell k = s.cell k := by
  simp [State.cell, hm, hd]

end Sys2Proof.Machine
end

