-- ==== Sys2Proof/Laws/Memory.lean ====
section
/-! SUPPORT. The laws of memory cells: read after write, the canonical form, and that equal contents are equal lists. -/

namespace Sys2Proof.Machine

variable {m m' : Memory} {k j : Nat} {v b : Byte}

/-! ## Read after write -/

@[simp] theorem Memory.find_nil (k : Nat) : Memory.find [] k = none := rfl

theorem Memory.find_insert (m : Memory) (k j : Nat) (v : Byte) :
    (m.insert k v).find j = if j = k then some v else m.find j := by
  induction m with
  | nil => simp [Memory.insert, Memory.find, eq_comm]
  | cons c m ih =>
    unfold Memory.insert
    split
    · simp [Memory.find, eq_comm]
    · split
      · next h => subst h; by_cases hj : j = c.1 <;> simp [Memory.find, hj, eq_comm]
      · next h =>
        by_cases hc : c.1 = j
        · subst hc; simp [Memory.find, Ne.symm h]
        · simp [Memory.find, hc, ih]

theorem Memory.find_erase (m : Memory) (k j : Nat) : (m.erase k).find j = if j = k then none else m.find j := by
  induction m with
  | nil => simp [Memory.erase]
  | cons c m ih =>
    unfold Memory.erase at ih ⊢
    by_cases hc : c.1 = k
    · subst hc
      by_cases hj : j = c.1
      · subst hj; simpa using ih
      · simp [Memory.find, hj, Ne.symm hj, ih]
    · by_cases hj : c.1 = j
      · subst hj; simp [hc, Memory.find]
      · simp [hc, Memory.find, hj, ih]

/-- What a cell reads as after a store at `k`: the stored byte at `k`, and the same as before everywhere else. -/
theorem State.cell_setCell (s : State) (k j : Nat) (v : Byte) :
    (s.setCell k v).cell j = if j = k then v else s.cell j := by
  by_cases hu : unlistedByte k = some v
  · by_cases hj : j = k
    · subst hj; simp [State.cell, Memory.set, hu, Memory.find_erase]
    · simp [State.cell, Memory.set, hu, Memory.find_erase, hj]
  · by_cases hj : j = k
    · subst hj; simp [State.cell, Memory.set, hu, Memory.find_insert]
    · simp [State.cell, Memory.set, hu, Memory.find_insert, hj]

/-! ## The canonical form -/

theorem Memory.wf_nil : Memory.wf [] := ⟨List.Pairwise.nil, by simp⟩

theorem Memory.wf_erase (h : m.wf) (k : Nat) : (m.erase k).wf :=
  ⟨h.1.filter _, fun c hc => h.2 c (List.mem_of_mem_filter hc)⟩

theorem Memory.mem_insert {c : Host.Cell} (h : c ∈ m.insert k v) : c = (k, v) ∨ c ∈ m := by
  induction m with
  | nil => simpa [Memory.insert] using h
  | cons d m ih =>
    unfold Memory.insert at h
    split at h
    · simpa using h
    · split at h
      · simp only [List.mem_cons] at h ⊢; tauto
      · simp only [List.mem_cons] at h ⊢; rcases h with h | h
        · tauto
        · rcases ih h with h | h <;> tauto

theorem Memory.sorted_insert (h : m.Pairwise (fun x y => x.1 < y.1)) (k : Nat) (v : Byte) :
    (m.insert k v).Pairwise (fun x y => x.1 < y.1) := by
  induction m with
  | nil => simp [Memory.insert]
  | cons d m ih =>
    obtain ⟨hd, hm⟩ := List.pairwise_cons.1 h
    unfold Memory.insert
    split
    · next hk =>
      refine List.pairwise_cons.2 ⟨fun c hc => ?_, h⟩
      rcases List.mem_cons.1 hc with rfl | hc
      · exact hk
      · exact lt_trans hk (hd c hc)
    · split
      · next hk => exact List.pairwise_cons.2 ⟨fun c hc => by simpa [hk] using hd c hc, hm⟩
      · next h1 h2 =>
        refine List.pairwise_cons.2 ⟨fun c hc => ?_, ih hm⟩
        rcases Memory.mem_insert hc with rfl | hc
        · show d.1 < k; omega
        · exact hd c hc

/-- A store keeps the canonical form. -/
theorem Memory.wf_set (h : m.wf) (hk : backed k = true) (v : Byte) : (m.set k v).wf := by
  unfold Memory.set
  split
  · exact Memory.wf_erase h k
  · next hu =>
    refine ⟨Memory.sorted_insert h.1 k v, fun c hc => ?_⟩
    rcases Memory.mem_insert hc with rfl | hc
    · exact ⟨hk, hu⟩
    · exact h.2 c hc

/-! ## Equal contents are equal lists -/

theorem Memory.find_some_of_mem (h : m.Pairwise (fun x y => x.1 < y.1)) {c : Host.Cell} (hc : c ∈ m) :
    m.find c.1 = some c.2 := by
  induction m with
  | nil => simp at hc
  | cons d m ih =>
    obtain ⟨hd, hm⟩ := List.pairwise_cons.1 h
    rcases List.mem_cons.1 hc with rfl | hc
    · simp [Memory.find]
    · have := hd c hc
      simp [Memory.find, this.ne, ih hm hc]

theorem Memory.mem_of_find_some (h : m.find k = some v) : (k, v) ∈ m := by
  induction m with
  | nil => simp at h
  | cons d m ih =>
    unfold Memory.find at h
    split at h
    · next hk => subst hk; simp at h; subst h; simp
    · exact List.mem_cons_of_mem _ (ih h)

/-- In canonical form an address is listed exactly when it does not hold its unlisted byte, so the contents fix the list. -/
theorem Memory.ext (hm : m.wf) (hm' : m'.wf)
    (h : ∀ k, (m.find k).or (unlistedByte k) = (m'.find k).or (unlistedByte k)) : m = m' := by
  have hf : ∀ k, m.find k = m'.find k := by
    intro k
    have hk := h k
    have key : ∀ {n : Memory}, n.wf → ∀ b, n.find k = some b → unlistedByte k ≠ some b :=
      fun hn b hb => (hn.2 _ (Memory.mem_of_find_some hb)).2
    cases h1 : m.find k <;> cases h2 : m'.find k <;> rw [h1, h2] at hk <;> simp at hk
    · exact absurd hk (key hm' _ h2)
    · exact absurd hk.symm (key hm _ h1)
    · rw [hk]
  have hmem : ∀ {n n' : Memory}, n.wf → n'.wf → (∀ k, n.find k = n'.find k) → ∀ c ∈ n, c ∈ n' := by
    intro n n' hn hn' he c hc
    have := Memory.find_some_of_mem hn.1 hc
    rw [he] at this
    exact Memory.mem_of_find_some this
  have hnd : ∀ {n : Memory}, n.wf → n.Nodup := fun hn => hn.1.imp (fun h e => by simp [e] at h)
  have hp : m.Perm m' := (List.perm_ext_iff_of_nodup (hnd hm) (hnd hm')).2 fun c =>
    ⟨hmem hm hm' hf c, hmem hm' hm (fun k => (hf k).symm) c⟩
  exact hp.eq_of_pairwise (fun a b _ _ h1 h2 => absurd h1 (by omega)) hm.1 hm'.1

end Sys2Proof.Machine
end

