-- ==== Sys2Proof/Laws/Access.lean ====
section
/-! SUPPORT. What a byte access does, once: `read8_eq`, `write8_eq`, and how stores through any address show in reads through
any other. -/

namespace Sys2Proof.Machine

/-! ## Region decode (R38, R40) -/

/-- In a table of rising, disjoint rows the row that holds an address is the one that is found. -/
theorem findRegion_of_mem {rows : List (Region × Nat × Nat)} (hp : rows.Pairwise (fun x y => x.2.2 ≤ y.2.1))
    {row : Region × Nat × Nat} (hr : row ∈ rows) {a : Nat} (ha : row.2.1 ≤ a ∧ a < row.2.2) :
    findRegion rows a = some (row.1, a - row.2.1) := by
  induction rows with
  | nil => simp at hr
  | cons r rows ih =>
    obtain ⟨hr', hp⟩ := List.pairwise_cons.1 hp
    rcases List.mem_cons.1 hr with rfl | hr
    · simp [findRegion, ha]
    · have := hr' row hr
      have hn : ¬ (r.2.1 ≤ a ∧ a < r.2.2) := by omega
      simp [findRegion, hn, ih hp hr]

theorem regionTable_rising : regionTable.Pairwise (fun x y => x.2.2 ≤ y.2.1) := by decide

/-- Every address lies in a row of the region table, and decodes to it. -/
theorem decodeAddr_of_mem {row : Region × Nat × Nat} (hr : row ∈ regionTable) {a : Half}
    (ha : row.2.1 ≤ a.toNat ∧ a.toNat < row.2.2) : decodeAddr a = (row.1, a.toNat - row.2.1) := by
  simp [decodeAddr, findRegion_of_mem regionTable_rising hr ha]

theorem exists_row (a : Half) : ∃ row ∈ regionTable, row.2.1 ≤ a.toNat ∧ a.toNat < row.2.2 := by
  have hlt := a.isLt
  simp only [regionTable, List.mem_cons, List.not_mem_nil, or_false, exists_eq_or_imp, exists_eq_left]
  omega

/-- The rows of the region table cover every address, so `decodeAddr` never takes its default. -/
theorem findRegion_isSome (a : Half) : (findRegion regionTable a.toNat).isSome = true := by
  obtain ⟨row, hr, ha⟩ := exists_row a
  simp [findRegion_of_mem regionTable_rising hr ha]

/-- Only the addresses 0xE000-0xFDFF decode to the echo. -/
theorem echo_bounds {a : Half} (h : (decodeAddr a).1 = .echo) : 0xE000 ≤ a.toNat ∧ a.toNat < 0xFE00 := by
  obtain ⟨row, hr, hb⟩ := exists_row a
  rw [decodeAddr_of_mem hr hb] at h
  simp only [regionTable, List.mem_cons, List.not_mem_nil, or_false] at hr
  rcases hr with rfl | rfl | rfl | rfl | rfl | rfl | rfl | rfl | rfl | rfl | rfl | rfl <;> simp at h hb
  omega

/-- The home address of an address: without the echo, none in the unusable range. -/
def home (a : Half) : Option Nat := (resolve (decodeAddr a)).map (fun so => so.1.base + so.2)

theorem home_eq (a : Half) :
    home a =
      if 0xE000 ≤ a.toNat ∧ a.toNat < 0xFE00 then some (a.toNat - 0x2000)
      else if 0xFEA0 ≤ a.toNat ∧ a.toNat < 0xFF00 then none
      else some a.toNat := by
  obtain ⟨row, hr, h1, h2⟩ := exists_row a
  have hd := decodeAddr_of_mem hr ⟨h1, h2⟩
  rw [home, hd]
  simp only [regionTable, List.mem_cons, List.not_mem_nil, or_false] at hr
  rcases hr with rfl | rfl | rfl | rfl | rfl | rfl | rfl | rfl | rfl | rfl | rfl | rfl <;> simp only at h1 h2 <;>
    simp only [resolve]
  case inr.inr.inr.inr.inr.inr.inl =>
    rw [if_pos (show 0xE000 ≤ a.toNat ∧ a.toNat < 0xFE00 from ⟨h1, h2⟩)]
    split_ifs <;> simp only [Option.map_some, Store.base, Option.some.injEq] <;> omega
  case inr.inr.inr.inr.inr.inr.inr.inr.inl =>
    rw [if_neg (by omega), if_pos (by omega)]
    rfl
  all_goals
    rw [if_neg (by omega), if_neg (by omega)]
    simp only [Option.map_some, Store.base, Option.some.injEq]
    omega

theorem backed_home {a : Half} {k : Nat} (h : home a = some k) : backed k = true := by
  rw [home_eq] at h
  have hlt := a.isLt
  split_ifs at h <;> simp only [Option.some.injEq] at h <;> simp [backed] <;> omega

/-! ## Byte access -/

theorem not_degraded (v : Variant) (r : Region) : degraded (implemented v) r = false := by
  cases v; simp [degraded, implemented]

theorem readStore_eq (st : Store) (off : Nat) (s : State) : readStore st off s = s.storeByte st off := by
  cases st <;> simp [readStore, romxRead, eramRead, ioReadOrMask]

theorem writeStore_eq (st : Store) (off : Nat) (a : Half) (v : Byte) (s : State) :
    writeStore st off a v s = if st = .rom0 ∨ st = .romx then s else s.setStoreByte st off v := by
  cases st <;> simp [writeStore, romWrite, eramWrite]

/-- A byte read changes no state, and gives the cell at the home address, or 0 in the unusable range (R52). -/
theorem read8_eq (a : Half) (s : State) :
    read8 a s = (match home a with | none => 0x00#8 | some k => s.cell k, s) := by
  simp only [read8, readByteWith, not_degraded, home]
  cases resolve (decodeAddr a) <;> simp [readStore_eq, State.storeByte]

theorem State.byteAt_eq (s : State) (a : Half) :
    s.byteAt a = match home a with | none => 0x00#8 | some k => s.cell k := by
  rw [State.byteAt, read8_eq]

@[simp] theorem read8_state (a : Half) (s : State) : (read8 a s).2 = s := by rw [read8_eq]

@[simp] theorem read8_byte (a : Half) (s : State) : (read8 a s).1 = s.byteAt a := rfl

theorem resolve_rom_iff (a : Half) (so : Store × Nat) (h : resolve (decodeAddr a) = some so) :
    (so.1 = .rom0 ∨ so.1 = .romx) ↔ a.toNat < 0x8000 := by
  revert h
  obtain ⟨row, hr, h1, h2⟩ := exists_row a
  have hd := decodeAddr_of_mem hr ⟨h1, h2⟩
  rw [hd]
  simp only [regionTable, List.mem_cons, List.not_mem_nil, or_false] at hr
  rcases hr with rfl | rfl | rfl | rfl | rfl | rfl | rfl | rfl | rfl | rfl | rfl | rfl <;> simp only at h1 h2 <;>
    simp only [resolve] <;> intro h
  case inr.inr.inr.inr.inr.inr.inl => split_ifs at h <;> simp only [Option.some.injEq] at h <;> subst h <;> simp <;> omega
  case inr.inr.inr.inr.inr.inr.inr.inr.inl => simp at h
  all_goals simp only [Option.some.injEq] at h; subst h; simp; try omega

/-- A byte write stores at the home address, but in the unusable range and in ROM, where it changes nothing (R53). -/
theorem write8_eq (a : Half) (v : Byte) (s : State) :
    write8 a v s =
      match home a with
      | none => s
      | some k => if a.toNat < 0x8000 then s else s.setCell k v := by
  simp only [write8, writeByteWith, not_degraded, home]
  cases h : resolve (decodeAddr a) with
  | none => rfl
  | some so => simp [writeStore_eq, resolve_rom_iff a so h, State.setStoreByte]

/-- A byte write changes `mem` and nothing else. -/
theorem write8_frame (a : Half) (v : Byte) (s : State) : write8 a v s = { s with mem := (write8 a v s).mem } := by
  rw [write8_eq]
  split
  · rfl
  · split <;> rfl

section
variable (a : Half) (v : Byte) (s : State)
@[simp] theorem write8_life : (write8 a v s).life = s.life := by rw [write8_frame]
@[simp] theorem write8_faulted : (write8 a v s).faulted = s.faulted := by rw [write8_frame]
@[simp] theorem write8_variant : (write8 a v s).variant = s.variant := by rw [write8_frame]
@[simp] theorem write8_lanes : (write8 a v s).lanes = s.lanes := by rw [write8_frame]
@[simp] theorem write8_pc : (write8 a v s).pc = s.pc := by rw [write8_frame]
@[simp] theorem write8_sp : (write8 a v s).sp = s.sp := by rw [write8_frame]
@[simp] theorem write8_diag : (write8 a v s).diag = s.diag := by rw [write8_frame]
@[simp] theorem write8_romDraw : (write8 a v s).romDraw = s.romDraw := by rw [write8_frame]
@[simp] theorem write8_responses : (write8 a v s).responses = s.responses := by rw [write8_frame]
@[simp] theorem write8_inbox : (write8 a v s).inbox = s.inbox := by rw [write8_frame]
end

/-- What address `x` reads as after a byte write at `a`: the byte written, if `x` and `a` reach one byte that a write changes;
else what it read as before (R67). -/
theorem byteAt_write8 (a x : Half) (v : Byte) (s : State) :
    (write8 a v s).byteAt x =
      if home x = home a ∧ home a ≠ none ∧ 0x8000 ≤ a.toNat then v else s.byteAt x := by
  rw [write8_eq]
  cases ha : home a with
  | none => simp
  | some k =>
    by_cases hr : a.toNat < 0x8000
    · simp [hr]
    · simp only [State.byteAt_eq, hr, if_false]
      cases hx : home x with
      | none => simp
      | some j =>
        have : 0x8000 ≤ a.toNat := by omega
        by_cases hj : j = k <;> simp [State.cell_setCell, hj, this]

/-- Bytes are a matter of `mem` and `romDraw` alone. -/
theorem State.byteAt_congr {s t : State} (hm : t.mem = s.mem) (hd : t.romDraw = s.romDraw) (a : Half) :
    t.byteAt a = s.byteAt a := by
  simp only [State.byteAt_eq, State.cell_congr hm hd]

@[simp] theorem State.byteAt_respond (s : State) (r : Response) (a : Half) : (s.respond r).byteAt a = s.byteAt a :=
  State.byteAt_congr (State.respond_mem s r) (State.respond_romDraw s r) a

/-- No byte write changes a ROM byte (R43). -/
theorem byteAt_write8_of_rom {x : Half} (hx : x.toNat < 0x8000) (a : Half) (v : Byte) (s : State) :
    (write8 a v s).byteAt x = s.byteAt x := by
  rw [byteAt_write8, if_neg]
  rintro ⟨h1, h2, h3⟩
  rw [home_eq x, if_neg (by omega), if_neg (by omega), home_eq] at h1
  split_ifs at h1 <;> simp only [Option.some.injEq] at h1 <;> omega

/-- A byte write keeps the canonical form. -/
theorem wf_write8 {s : State} (h : s.mem.wf) (a : Half) (v : Byte) : (write8 a v s).mem.wf := by
  rw [write8_eq]
  cases ha : home a with
  | none => exact h
  | some k =>
    dsimp only
    split
    · exact h
    · exact Memory.wf_set h (backed_home ha) v

/-! ## 16-bit access -/

theorem latchGuard_eq (a : Half) : latchGuard a = true ↔ a = 0xFFFE#16 ∨ a = 0xFFFF#16 := by
  simp [latchGuard]

/-- No admitted 16-bit access wraps (R59). -/
theorem toNat_succ_of_not_guarded {a : Half} (h : latchGuard a = false) : (a + 1#16).toNat = a.toNat + 1 := by
  have hlt := a.isLt
  have : a ≠ 0xFFFF#16 := by rintro rfl; simp [latchGuard] at h
  have hne : a.toNat ≠ 0xFFFF := fun he => this (BitVec.eq_of_toNat_eq he)
  rw [BitVec.toNat_add]
  simp
  omega

theorem read16_eq (a : Half) (s : State) :
    read16 a s =
      if latchGuard a then .error .ie16Access else .ok (joinBytes (s.byteAt (a + 1#16)) (s.byteAt a), s) := by
  simp only [read16, read8_state, read8_byte]

end Sys2Proof.Machine
end

