-- ==== Sys2Proof/Laws/Bytes.lean ====
section
/-! SUPPORT. Splitting, joining and masking bytes. -/

namespace Sys2Proof.Machine

@[simp] theorem lowByte_joinBytes (hi lo : Byte) : lowByte (joinBytes hi lo) = lo := by
  apply BitVec.eq_of_getLsbD_eq
  intro i hi'
  simp only [lowByte, joinBytes, BitVec.getLsbD_extractLsb', BitVec.getLsbD_or, BitVec.getLsbD_shiftLeft,
    BitVec.getLsbD_setWidth]
  have : i < 16 := by omega
  simp [hi', this]

@[simp] theorem highByte_joinBytes (hi lo : Byte) : highByte (joinBytes hi lo) = hi := by
  apply BitVec.eq_of_getLsbD_eq
  intro i hi'
  simp only [highByte, joinBytes, BitVec.getLsbD_extractLsb', BitVec.getLsbD_or, BitVec.getLsbD_shiftLeft,
    BitVec.getLsbD_setWidth]
  have h16 : 8 + i < 16 := by omega
  have h16' : i < 16 := by omega
  simp [hi', h16, h16']

@[simp] theorem joinBytes_high_low (v : Half) : joinBytes (highByte v) (lowByte v) = v := by
  apply BitVec.eq_of_getLsbD_eq
  intro i hi'
  simp only [highByte, lowByte, joinBytes, BitVec.getLsbD_extractLsb', BitVec.getLsbD_or, BitVec.getLsbD_shiftLeft,
    BitVec.getLsbD_setWidth]
  by_cases h : i < 8
  · simp [h, hi']
  · have h8 : i - 8 < 8 := by omega
    have h16 : i - 8 < 16 := by omega
    have he : 8 + (i - 8) = i := by omega
    simp [h, hi', h8, h16, he]

theorem joinBytes_inj {a b c d : Byte} (h : joinBytes a b = joinBytes c d) : a = c ∧ b = d :=
  ⟨by simpa using congrArg highByte h, by simpa using congrArg lowByte h⟩

/-- The mask clears bits 2:0 (R19). -/
@[simp] theorem maskFlags_low_bits (b : Byte) : maskFlags b &&& 0x07#8 = 0#8 := by
  simp only [maskFlags, flagWriteMask, BitVec.and_assoc]
  simp

@[simp] theorem maskFlags_maskFlags (b : Byte) : maskFlags (maskFlags b) = maskFlags b := by
  simp only [maskFlags, BitVec.and_assoc, BitVec.and_self]

/-- A byte with bits 2:0 clear is stored in F as it is. -/
theorem maskFlags_of_low_bits {b : Byte} (h : b &&& 0x07#8 = 0#8) : maskFlags b = b := by
  revert h
  revert b
  decide

end Sys2Proof.Machine
end

