-- ==== Sys2Proof/Laws/Fields.lean ====
section
/-! SUPPORT. Each field of a packed word is the field it was packed from (R72), and a word is the packing of its fields. -/

namespace Sys2Proof

section
variable (op : BitVec 4) (p : BitVec 2) (l : BitVec 1) (a d : BitVec 16)

theorem packWord_getLsbD (i : Nat) :
    (packWord op p l a d).getLsbD i =
      if i < 16 then d.getLsbD i
      else if i < 32 then a.getLsbD (i - 16)
      else if i = 32 then false
      else if i = 33 then l.getLsbD 0
      else if i < 36 then p.getLsbD (i - 34)
      else op.getLsbD (i - 36) := by
  simp only [packWord, BitVec.getLsbD_append]
  by_cases h1 : i < 16
  · simp [h1]
  by_cases h2 : i < 32
  · have : i - 16 < 16 := by omega
    simp [h1, h2, this]
  have h2' : ¬ i - 16 < 16 := by omega
  by_cases h3 : i = 32
  · subst h3; simp
  have h3' : ¬ i - 16 - 16 < 1 := by omega
  by_cases h4 : i = 33
  · subst h4; simp
  have h4' : ¬ i - 16 - 16 - 1 < 1 := by omega
  by_cases h5 : i < 36
  · have h5' : i - 16 - 16 - 1 - 1 < 2 := by omega
    have e : i - 16 - 16 - 1 - 1 = i - 34 := by omega
    have h5'' : i - 34 < 2 := by omega
    simp only [h1, h2, h2', h3, h3', h4, h4', h5, h5'', e, if_true, if_false]
  · have h5' : ¬ i - 16 - 16 - 1 - 1 < 2 := by omega
    have e : i - 16 - 16 - 1 - 1 - 2 = i - 36 := by omega
    simp only [h1, h2, h2', h3, h3', h4, h4', h5, h5', e, if_false]

@[simp] theorem fieldOP_packWord : fieldOP (packWord op p l a d) = op := by
  apply BitVec.eq_of_getLsbD_eq
  intro i hi
  rw [fieldOP, BitVec.getLsbD_extractLsb', packWord_getLsbD, if_neg (by omega), if_neg (by omega), if_neg (by omega),
    if_neg (by omega), if_neg (by omega)]
  simp [hi]

@[simp] theorem fieldP_packWord : fieldP (packWord op p l a d) = p := by
  apply BitVec.eq_of_getLsbD_eq
  intro i hi
  rw [fieldP, BitVec.getLsbD_extractLsb', packWord_getLsbD, if_neg (by omega), if_neg (by omega), if_neg (by omega),
    if_neg (by omega), if_pos (by omega)]
  simp [hi]

@[simp] theorem fieldL_packWord : fieldL (packWord op p l a d) = l := by
  apply BitVec.eq_of_getLsbD_eq
  intro i hi
  obtain rfl : i = 0 := by omega
  rw [fieldL, BitVec.getLsbD_extractLsb', packWord_getLsbD]
  simp

@[simp] theorem fieldR_packWord : fieldR (packWord op p l a d) = 0#1 := by
  apply BitVec.eq_of_getLsbD_eq
  intro i hi
  obtain rfl : i = 0 := by omega
  rw [fieldR, BitVec.getLsbD_extractLsb', packWord_getLsbD]
  simp

@[simp] theorem fieldA_packWord : fieldA (packWord op p l a d) = a := by
  apply BitVec.eq_of_getLsbD_eq
  intro i hi
  rw [fieldA, BitVec.getLsbD_extractLsb', packWord_getLsbD, if_neg (by omega), if_pos (by omega)]
  simp [hi]

@[simp] theorem fieldD_packWord : fieldD (packWord op p l a d) = d := by
  apply BitVec.eq_of_getLsbD_eq
  intro i hi
  rw [fieldD, BitVec.getLsbD_extractLsb', packWord_getLsbD, if_pos (by omega)]
  simp [hi]

@[simp] theorem fieldDHigh_packWord : fieldDHigh (packWord op p l a d) = d.extractLsb' 8 8 := by
  apply BitVec.eq_of_getLsbD_eq
  intro i hi
  rw [fieldDHigh, BitVec.getLsbD_extractLsb', packWord_getLsbD, if_pos (by omega), BitVec.getLsbD_extractLsb']

@[simp] theorem fieldDLow_packWord : fieldDLow (packWord op p l a d) = d.extractLsb' 0 8 := by
  apply BitVec.eq_of_getLsbD_eq
  intro i hi
  rw [fieldDLow, BitVec.getLsbD_extractLsb', packWord_getLsbD, if_pos (by omega), BitVec.getLsbD_extractLsb']

end

theorem byteInD_getLsbD (b : Byte) (i : Nat) : (byteInD b).getLsbD i = b.getLsbD i := by
  have h : (byteInD b).getLsbD i = (0#8 ++ b : BitVec (8 + 8)).getLsbD i := rfl
  rw [h, BitVec.getLsbD_append]
  by_cases h8 : i < 8
  · simp [h8]
  · simp [h8, BitVec.getLsbD_of_ge b i (by omega)]

@[simp] theorem high_byteInD (b : Byte) : (byteInD b).extractLsb' 8 8 = 0#8 := by
  apply BitVec.eq_of_getLsbD_eq
  intro i hi
  rw [BitVec.getLsbD_extractLsb', byteInD_getLsbD]
  simp

@[simp] theorem low_byteInD (b : Byte) : (byteInD b).extractLsb' 0 8 = b := by
  apply BitVec.eq_of_getLsbD_eq
  intro i hi
  rw [BitVec.getLsbD_extractLsb', byteInD_getLsbD]
  simp [hi]

@[simp] theorem pairOfField_fieldOfPair (p : Pair) : pairOfField (fieldOfPair p) = p := by cases p <;> rfl
@[simp] theorem laneOfField_fieldOfLane (l : Lane) : laneOfField (fieldOfLane l) = l := by cases l <;> rfl
@[simp] theorem fieldOfPair_pairOfField (p : BitVec 2) : fieldOfPair (pairOfField p) = p := by revert p; decide
@[simp] theorem fieldOfLane_laneOfField (l : BitVec 1) : fieldOfLane (laneOfField l) = l := by revert l; decide

/-- A word whose reserved bit is zero is the packing of its fields. -/
theorem packWord_fields {w : CmdWord} (h : fieldR w = 0#1) :
    packWord (fieldOP w) (fieldP w) (fieldL w) (fieldA w) (fieldD w) = w := by
  apply BitVec.eq_of_getLsbD_eq
  intro i hi
  rw [packWord_getLsbD]
  by_cases h1 : i < 16
  · simp [h1, fieldD]
  by_cases h2 : i < 32
  · have e : 16 + (i - 16) = i := by omega
    have : i - 16 < 16 := by omega
    simp [h1, h2, fieldA, e, this]
  by_cases h3 : i = 32
  · subst h3
    have := congrArg (fun x => x.getLsbD 0) h
    simp [fieldR] at this
    simp [this]
  by_cases h4 : i = 33
  · subst h4; simp [fieldL]
  by_cases h5 : i < 36
  · have e : 34 + (i - 34) = i := by omega
    have : i - 34 < 2 := by omega
    simp [h1, h2, h3, h4, h5, fieldP, e, this]
  · have e : 36 + (i - 36) = i := by omega
    have : i - 36 < 4 := by omega
    simp [h1, h2, h3, h4, h5, fieldOP, e, this]

/-- An 8-bit operand with its high byte zero is the whole of D. -/
theorem byteInD_fieldDLow {w : CmdWord} (h : fieldDHigh w = 0#8) : byteInD (fieldDLow w) = fieldD w := by
  apply BitVec.eq_of_getLsbD_eq
  intro i hi
  rw [byteInD_getLsbD, fieldDLow, fieldD, BitVec.getLsbD_extractLsb', BitVec.getLsbD_extractLsb']
  by_cases h1 : i < 8
  · simp [h1, hi]
  · have := congrArg (fun x => x.getLsbD (i - 8)) h
    have e : 8 + (i - 8) = i := by omega
    have h8 : i - 8 < 8 := by omega
    simp only [fieldDHigh, BitVec.getLsbD_extractLsb', e, h8, decide_true, Bool.true_and, BitVec.getLsbD_zero] at this
    simp [h1, this]

theorem whenZero_ok {unused : Bool} {i j : Instr} (h : whenZero unused i = .ok j) : unused = true ∧ i = j := by
  unfold whenZero at h
  split at h <;> simp_all

/-- Where a row's mask covers a field, a word that fits the row holds the row's bits in it. -/
theorem field_of_fits {w mask pat : CmdWord} {n m : Nat} (h : w &&& mask = pat) (hm : mask.extractLsb' n m = BitVec.allOnes m) :
    w.extractLsb' n m = pat.extractLsb' n m := by
  rw [← h]
  apply BitVec.eq_of_getLsbD_eq
  intro i hi
  have := congrArg (fun z => z.getLsbD i) hm
  simp [hi] at this
  simp [hi, this]

end Sys2Proof
end

