-- ==== Sys2Proof/Laws/Listing.lean ====
section
/-! SUPPORT. Reading back what the textual form writes, operand by operand. -/

namespace Sys2Proof.Machine

theorem hexValue_hexDigit (n : BitVec 4) : hexValue (hexDigit n) = some n.toNat := by revert n; decide
theorem hexDigit_ne_comma (n : BitVec 4) : hexDigit n ≠ ',' := by revert n; decide
theorem hexDigit_ne_space (n : BitVec 4) : hexDigit n ≠ ' ' := by revert n; decide

theorem byte_of_digits (b : Byte) : 16 * (b.extractLsb' 4 4).toNat + (b.extractLsb' 0 4).toNat = b.toNat := by
  simp [BitVec.extractLsb'_toNat, Nat.shiftRight_eq_div_pow]; have := b.isLt; omega

theorem half_of_digits (b : Half) :
    16 * (16 * (16 * (b.extractLsb' 12 4).toNat + (b.extractLsb' 8 4).toNat) + (b.extractLsb' 4 4).toNat) +
      (b.extractLsb' 0 4).toNat = b.toNat := by
  simp [BitVec.extractLsb'_toNat, Nat.shiftRight_eq_div_pow]; have := b.isLt; omega

theorem parseNumber_byteText (b : Byte) : parseNumber 8 (byteText b) = some b := by
  have := b.isLt
  have e := byte_of_digits b
  simp [parseNumber, byteText, hexNumber, hexValue_hexDigit, -BitVec.extractLsb'_toNat, e, this]

theorem parseNumber_halfText (b : Half) : parseNumber 16 (halfText b) = some b := by
  have := b.isLt
  have e := half_of_digits b
  simp [parseNumber, halfText, hexNumber, hexValue_hexDigit, -BitVec.extractLsb'_toNat, e, this]

theorem parsePair_pairText (p : Pair) : parsePair (pairText p) = some p := by cases p <;> decide
theorem parseLane_laneText (l : Lane) : parseLane (laneText l) = some l := by cases l <;> decide

/-- A text with neither a comma nor a space in it. -/
def PlainText (t : List Char) : Prop := ∀ c ∈ t, c ≠ ',' ∧ c ≠ ' '

theorem plainText_half (v : Half) : PlainText (halfText v) := by
  intro c hc
  simp only [halfText, List.mem_cons, List.not_mem_nil, or_false] at hc
  rcases hc with rfl | rfl | rfl | rfl | rfl | rfl <;> simp [hexDigit_ne_comma, hexDigit_ne_space]

theorem plainText_byte (b : Byte) : PlainText (byteText b) := by
  intro c hc
  simp only [byteText, List.mem_cons, List.not_mem_nil, or_false] at hc
  rcases hc with rfl | rfl | rfl | rfl <;> simp [hexDigit_ne_comma, hexDigit_ne_space]

theorem plainText_pair (p : Pair) : PlainText (pairText p) := by cases p <;> simp [PlainText, pairText]
theorem plainText_lane (l : Lane) : PlainText (laneText l) := by cases l <;> simp [PlainText, laneText]

theorem splitOperands_plain {t : List Char} (h : PlainText t) : splitOperands t = [t] := by
  induction t with
  | nil => rfl
  | cons c t ih =>
    have h1 := h c (by simp)
    simp [splitOperands, h1, ih fun c hc => h c (by simp [hc])]

theorem splitOperands_append {t : List Char} (h : PlainText t) (rest : List Char) :
    splitOperands (t ++ ',' :: ' ' :: rest) = t :: splitOperands rest := by
  induction t with
  | nil => simp [splitOperands]
  | cons c t ih =>
    have h1 := h c (by simp)
    simp [splitOperands, h1, ih fun c hc => h c (by simp [hc])]

/-- Operands joined are split again. -/
theorem splitOperands_joinOperands {ops : List (List Char)} (hne : ops ≠ []) (h : ∀ o ∈ ops, PlainText o) :
    splitOperands (joinOperands ops) = ops := by
  induction ops with
  | nil => exact absurd rfl hne
  | cons x ops ih =>
    cases ops with
    | nil => exact splitOperands_plain (h x (by simp))
    | cons y ops =>
      rw [joinOperands, splitOperands_append (h x (by simp)),
        ih (by simp) fun o ho => h o (List.mem_cons_of_mem _ ho)]

theorem splitFirst_append {c : Char} {t : List Char} (h : c ∉ t) (rest : List Char) :
    splitFirst c (t ++ c :: rest) = (t, some rest) := by
  induction t with
  | nil => simp [splitFirst]
  | cons x t ih =>
    have hx : x ≠ c := by rintro rfl; simp at h
    simp [splitFirst, hx, ih (fun hm => h (List.mem_cons_of_mem _ hm))]

end Sys2Proof.Machine
end

