-- ==== Sys2Proof/Laws/Metadata.lean ====
section
/-! SUPPORT. The opcode table and R112's check: small lemmas. -/

namespace Sys2Proof.Machine

@[simp] theorem mem_allOpcodes (op : Byte) : op ∈ allOpcodes := by
  rw [allOpcodes, List.mem_map]
  exact ⟨op.toNat, List.mem_range.2 op.isLt, by simp⟩

/-- R109 and R110 do not collide: no unused opcode is a conditional one. -/
theorem not_conditional_of_unused : ∀ op ∈ unusedOpcodes, op ∉ conditionalOpcodes := by decide

@[simp] theorem opcodeMeta_of_unused {op : Byte} (h : op ∈ unusedOpcodes) : opcodeMeta op = sentinelRecord := if_pos h

theorem r112ConditionalsHold_iff (table : Byte → OpcodeRecord) :
    r112ConditionalsHold table = true ↔ ∀ op, (table op).longCycles.isSome = conditionalOpcodes.contains op := by
  simp only [r112ConditionalsHold, List.all_eq_true, mem_allOpcodes, forall_const, beq_iff_eq]

theorem r112UnusedHold_iff (table : Byte → OpcodeRecord) (sentinel : OpcodeRecord) :
    r112UnusedHold table sentinel = true ↔ ∀ op, (table op == sentinel) = unusedOpcodes.contains op := by
  simp only [r112UnusedHold, List.all_eq_true, mem_allOpcodes, forall_const, beq_iff_eq]

end Sys2Proof.Machine
end

