-- ==== Sys2Proof/Laws/PerInstr.lean ====
section
/-! SUPPORT. The per-instruction family EncodeFits: the word the encoder writes for a command fits a row of R74. -/

namespace Sys2Proof.Laws.EncodeFits

/-- The encoding of the command is a well-formed word (R74). -/
def Statement (i : Instr) : Prop := wordWf (encode i) = true

/-- A word is well formed if its bits are those of a row wherever the row's mask is set. -/
theorem wordWf_of_row {w : CmdWord} (r : CmdRow) (hr : r ∈ cmdRows)
    (h : ∀ i < 40, (w.getLsbD i && r.mask.getLsbD i) = r.pattern.getLsbD i) : wordWf w = true := by
  rw [wordWf, List.any_eq_true]
  refine ⟨r, hr, ?_⟩
  rw [CmdRow.fits, beq_iff_eq]
  apply BitVec.eq_of_getLsbD_eq
  intro i hi
  rw [BitVec.getLsbD_and, h i hi]

theorem read8 (a : Half) : Statement (.read8 a) := by
  refine wordWf_of_row ⟨0x0000000000#40, 0xFF0000FFFF#40⟩ (by simp [cmdRows]) fun i hi => ?_
  rw [encode, packWord_getLsbD]
  interval_cases i <;> simp

theorem read16 (a : Half) : Statement (.read16 a) := by
  refine wordWf_of_row ⟨0x1000000000#40, 0xFF0000FFFF#40⟩ (by simp [cmdRows]) fun i hi => ?_
  rw [encode, packWord_getLsbD]
  interval_cases i <;> simp

theorem write8 (a : Half) (b : Byte) : Statement (.write8 a b) := by
  refine wordWf_of_row ⟨0x2000000000#40, 0xFF0000FF00#40⟩ (by simp [cmdRows]) fun i hi => ?_
  rw [encode, packWord_getLsbD]
  simp only [byteInD_getLsbD]
  interval_cases i <;> simp

theorem write16 (a v : Half) : Statement (.write16 a v) := by
  refine wordWf_of_row ⟨0x3000000000#40, 0xFF00000000#40⟩ (by simp [cmdRows]) fun i hi => ?_
  rw [encode, packWord_getLsbD]
  interval_cases i <;> simp

theorem reset : Statement (.reset) := by
  refine wordWf_of_row ⟨0x4000000000#40, 0xFFFFFFFFFF#40⟩ (by simp [cmdRows]) fun i hi => ?_
  rw [encode, packWord_getLsbD]
  interval_cases i <;> simp

theorem readPair (p : Pair) : Statement (.readPair p) := by
  refine wordWf_of_row ⟨0x5000000000#40, 0xF3FFFFFFFF#40⟩ (by simp [cmdRows]) fun i hi => ?_
  rw [encode, packWord_getLsbD]
  interval_cases i <;> simp

theorem writePair (p : Pair) (v : Half) : Statement (.writePair p v) := by
  refine wordWf_of_row ⟨0x6000000000#40, 0xF3FFFF0000#40⟩ (by simp [cmdRows]) fun i hi => ?_
  rw [encode, packWord_getLsbD]
  interval_cases i <;> simp

theorem readByte (p : Pair) (l : Lane) : Statement (.readByte p l) := by
  refine wordWf_of_row ⟨0x7000000000#40, 0xF1FFFFFFFF#40⟩ (by simp [cmdRows]) fun i hi => ?_
  rw [encode, packWord_getLsbD]
  interval_cases i <;> simp

theorem writeByte (p : Pair) (l : Lane) (b : Byte) : Statement (.writeByte p l b) := by
  refine wordWf_of_row ⟨0x8000000000#40, 0xF1FFFFFF00#40⟩ (by simp [cmdRows]) fun i hi => ?_
  rw [encode, packWord_getLsbD]
  simp only [byteInD_getLsbD]
  interval_cases i <;> simp

theorem readFlags : Statement (.readFlags) := by
  refine wordWf_of_row ⟨0x9000000000#40, 0xFFFFFFFFFF#40⟩ (by simp [cmdRows]) fun i hi => ?_
  rw [encode, packWord_getLsbD]
  interval_cases i <;> simp

theorem writeFlags (f : Byte) : Statement (.writeFlags f) := by
  refine wordWf_of_row ⟨0xA000000000#40, 0xFFFFFFFF00#40⟩ (by simp [cmdRows]) fun i hi => ?_
  rw [encode, packWord_getLsbD]
  simp only [byteInD_getLsbD]
  interval_cases i <;> simp

theorem readPc : Statement (.readPc) := by
  refine wordWf_of_row ⟨0xB000000000#40, 0xFFFFFFFFFF#40⟩ (by simp [cmdRows]) fun i hi => ?_
  rw [encode, packWord_getLsbD]
  interval_cases i <;> simp

theorem writePc (v : Half) : Statement (.writePc v) := by
  refine wordWf_of_row ⟨0xC000000000#40, 0xFFFFFF0000#40⟩ (by simp [cmdRows]) fun i hi => ?_
  rw [encode, packWord_getLsbD]
  interval_cases i <;> simp

theorem readSp : Statement (.readSp) := by
  refine wordWf_of_row ⟨0xD000000000#40, 0xFFFFFFFFFF#40⟩ (by simp [cmdRows]) fun i hi => ?_
  rw [encode, packWord_getLsbD]
  interval_cases i <;> simp

theorem writeSp (v : Half) : Statement (.writeSp v) := by
  refine wordWf_of_row ⟨0xE000000000#40, 0xFFFFFF0000#40⟩ (by simp [cmdRows]) fun i hi => ?_
  rw [encode, packWord_getLsbD]
  interval_cases i <;> simp

theorem lookup (op : Byte) : Statement (.lookup op) := by
  refine wordWf_of_row ⟨0xF000000000#40, 0xFFFFFFFF00#40⟩ (by simp [cmdRows]) fun i hi => ?_
  rw [encode, packWord_getLsbD]
  simp only [byteInD_getLsbD]
  interval_cases i <;> simp

end Sys2Proof.Laws.EncodeFits
end

