-- ==== Sys2Proof/Laws/Reach.lean ====
section
/-! SUPPORT. `reach` and `Writable`, the claims' words for where an access goes: two addresses reach one stored byte exactly when
they have one home address, and byte access in those words. -/

namespace Sys2Proof.Machine

theorem home_reach (a : Half) : home a = (reach a).map (fun so => so.1.base + so.2) := rfl

/-- An offset that an address reaches lies in its store. -/
theorem reach_bound {a : Half} {so : Store × Nat} (h : reach a = some so) : so.2 < so.1.size := by
  revert h
  obtain ⟨row, hr, h1, h2⟩ := exists_row a
  have hd := decodeAddr_of_mem hr ⟨h1, h2⟩
  rw [reach, hd]
  simp only [regionTable, List.mem_cons, List.not_mem_nil, or_false] at hr
  rcases hr with rfl | rfl | rfl | rfl | rfl | rfl | rfl | rfl | rfl | rfl | rfl | rfl <;> simp only at h1 h2 <;>
    simp only [resolve] <;> intro h
  case inr.inr.inr.inr.inr.inr.inl =>
    split_ifs at h <;> simp only [Option.some.injEq] at h <;> subst h <;> simp only [Store.size] <;> omega
  case inr.inr.inr.inr.inr.inr.inr.inr.inl => simp at h
  all_goals simp only [Option.some.injEq] at h; subst h; simp only [Store.size]; omega

/-- The stores do not overlap. -/
theorem base_add_inj {st st' : Store} {o o' : Nat} (h1 : o < st.size) (h2 : o' < st'.size)
    (h : st.base + o = st'.base + o') : st = st' ∧ o = o' := by
  cases st <;> cases st' <;> simp only [Store.size, Store.base] at h1 h2 h <;>
    first
    | (exfalso; omega)
    | (refine ⟨rfl, ?_⟩; omega)

theorem reach_eq_iff (a x : Half) : reach x = reach a ↔ home x = home a := by
  rw [home_reach, home_reach]
  constructor
  · intro h; rw [h]
  · intro h
    cases hx : reach x <;> cases ha : reach a <;> rw [hx, ha] at h <;> simp at h ⊢
    obtain ⟨e1, e2⟩ := base_add_inj (reach_bound hx) (reach_bound ha) h
    exact Prod.ext e1 e2

theorem writable_iff (a : Half) : Writable a ↔ home a ≠ none ∧ 0x8000 ≤ a.toNat := by
  rw [Writable, home_reach]; simp

/-- What a write stores is read back through every address that reaches the byte. -/
theorem byteAt_write8_of_reach {a x : Half} (hw : Writable a) (hx : reach x = reach a) (v : Byte) (s : State) :
    (write8 a v s).byteAt x = v := by
  rw [byteAt_write8, if_pos ⟨(reach_eq_iff a x).1 hx, (writable_iff a).1 hw⟩]

/-- A write leaves alone every address that does not reach the byte it stores. -/
theorem byteAt_write8_of_not_reach {a x : Half} (h : ¬ (Writable a ∧ reach x = reach a)) (v : Byte) (s : State) :
    (write8 a v s).byteAt x = s.byteAt x := by
  rw [byteAt_write8, if_neg]
  exact fun h' => h ⟨(writable_iff a).2 h'.2, (reach_eq_iff a x).2 h'.1⟩

/-- The two bytes of a 16-bit access outside the guard are two stored bytes. -/
theorem reach_add_one_ne {a : Half} (hw : Writable a) (h : a ≠ 0xFFFF#16) : reach a ≠ reach (a + 1#16) := by
  intro hr
  have hn : (a + 1#16).toNat = a.toNat + 1 := by bv_omega
  have hlt := a.isLt
  obtain ⟨hw1, hw2⟩ := (writable_iff a).1 hw
  rw [reach_eq_iff, home_eq, home_eq, hn] at hr
  split_ifs at hr <;> simp only [Option.some.injEq] at hr <;> try omega
  exact hw1 (by rw [home_eq, if_neg (by omega), if_pos (by omega)])

/-- Every byte of every store is reached by some address. -/
theorem exists_reach {st : Store} {off : Nat} (h : off < st.size) : ∃ x : Half, reach x = some (st, off) := by
  refine ⟨BitVec.ofNat 16 (st.base + off), ?_⟩
  have hn : (BitVec.ofNat 16 (st.base + off)).toNat = st.base + off := by
    simp only [BitVec.toNat_ofNat]; cases st <;> simp only [Store.size, Store.base] at * <;> omega
  generalize BitVec.ofNat 16 (st.base + off) = x at *
  have hh : home x = some (st.base + off) := by
    rw [home_eq, hn, if_neg, if_neg] <;> cases st <;> simp only [Store.size, Store.base] at * <;> omega
  rw [home_reach] at hh
  cases hr : reach x with
  | none => rw [hr] at hh; simp at hh
  | some so =>
    rw [hr] at hh; simp only [Option.map_some, Option.some.injEq] at hh
    obtain ⟨h1, h2⟩ := base_add_inj (reach_bound hr) h hh
    rw [← h1, ← h2]

theorem storeByte_of_reach {st : Store} {off : Nat} {x : Half} (h : reach x = some (st, off)) (s : State) :
    s.storeByte st off = s.byteAt x := by
  rw [State.byteAt_eq, home_reach, h]; rfl

end Sys2Proof.Machine
end

