-- ==== Sys2Proof/Laws/Registers.lean ====
section
/-! SUPPORT. The laws of lanes, pairs and flags. -/

namespace Sys2Proof.Machine

@[simp] theorem storedLane_hi (p : Pair) (b : Byte) : storedLane p .hi b = b := by cases p <;> rfl
@[simp] theorem storedLane_af_lo (b : Byte) : storedLane .af .lo b = maskFlags b := rfl

theorem storedLane_of_ne {p : Pair} (hp : p ≠ .af) (l : Lane) (b : Byte) : storedLane p l b = b := by
  cases p <;> cases l <;> simp_all [storedLane]

@[simp] theorem State.lanePair_setLanePair (s : State) (p q : Pair) (x : LanePair) :
    (s.setLanePair p x).lanePair q = if q = p then x else s.lanePair q := by
  cases p <;> cases q <;> rfl

/-- A lane write stores one lane and leaves every other lane alone (R17). -/
theorem State.lane_writeLane (s : State) (p q : Pair) (l l' : Lane) (b : Byte) :
    (s.writeLane p l b).lane q l' = if q = p ∧ l' = l then storedLane p l b else s.lane q l' := by
  cases l <;> cases l' <;> by_cases h : q = p <;> simp [State.writeLane, State.lane, h]

/-- A pair write stores both lanes and leaves every other pair alone (R16). -/
theorem State.lane_writePair (s : State) (p q : Pair) (l : Lane) (v : Half) :
    (s.writePair p v).lane q l =
      if q = p then (match l with | .hi => highByte v | .lo => storedLane p .lo (lowByte v)) else s.lane q l := by
  cases l <;> by_cases h : q = p <;> simp [State.writePair, State.lane_writeLane, h]

theorem State.flags_eq (s : State) : s.flags = s.lane .af .lo := rfl

/-- WRITE_FLAGS writes the low lane of AF (R18). -/
theorem State.writeFlags_eq (s : State) (b : Byte) : s.writeFlags b = s.writeLane .af .lo b := rfl

/-- A lane write changes `lanes` and nothing else. -/
theorem State.writeLane_frame (s : State) (p : Pair) (l : Lane) (b : Byte) :
    s.writeLane p l b = { s with lanes := (s.writeLane p l b).lanes } := by
  cases l <;> cases p <;> rfl

/-- A pair write changes `lanes` and nothing else. -/
theorem State.writePair_frame (s : State) (p : Pair) (v : Half) :
    s.writePair p v = { s with lanes := (s.writePair p v).lanes } := by
  rw [State.writePair, State.writeLane_frame, State.writeLane_frame s]

@[simp] theorem State.lane_respond (s : State) (r : Response) (p : Pair) (l : Lane) : (s.respond r).lane p l = s.lane p l := by
  cases p <;> cases l <;> rfl
@[simp] theorem State.pair_respond (s : State) (r : Response) (p : Pair) : (s.respond r).pair p = s.pair p := by
  cases p <;> rfl

/-- A pair whose low lane was masked reads as the masked pair. -/
theorem joinBytes_maskFlags (v : Half) : joinBytes (highByte v) (maskFlags (lowByte v)) = v &&& 0xFFF8#16 := by
  have h : joinBytes (highByte v) (maskFlags (lowByte v)) = joinBytes (highByte v) (lowByte v) &&& 0xFFF8#16 := by
    generalize highByte v = x
    generalize lowByte v = y
    apply BitVec.eq_of_getLsbD_eq
    intro i hi
    simp only [joinBytes, maskFlags, flagWriteMask]
    simp
    interval_cases i <;> simp
  rw [h, joinBytes_high_low]

/-- A pair whose low lane has bits 2:0 clear has bits 2:0 clear. -/
theorem joinBytes_low_bits (hi : Byte) {lo : Byte} (h : lo &&& 0x07#8 = 0#8) : joinBytes hi lo &&& 0x0007#16 = 0#16 := by
  have hl := joinBytes_maskFlags (joinBytes hi lo)
  rw [highByte_joinBytes, lowByte_joinBytes, maskFlags_of_low_bits h] at hl
  rw [hl, BitVec.and_assoc]
  simp

/-- F is clean after a lane write to a clean state, whatever the lane. -/
theorem flags_writeLane_low_bits {s : State} (hs : s.flags &&& 0x07#8 = 0#8) (p : Pair) (l : Lane) (b : Byte) :
    (s.writeLane p l b).flags &&& 0x07#8 = 0#8 := by
  rw [State.flags_eq, State.lane_writeLane]
  split
  · next h => obtain ⟨rfl, rfl⟩ := h; simp
  · exact hs

theorem flags_writePair_low_bits {s : State} (hs : s.flags &&& 0x07#8 = 0#8) (p : Pair) (v : Half) :
    (s.writePair p v).flags &&& 0x07#8 = 0#8 :=
  flags_writeLane_low_bits (flags_writeLane_low_bits hs _ _ _) _ _ _

/-- Two register files with the same lanes are the same. -/
theorem Lanes.ext_lane {s t : State} (h : ∀ p l, s.lane p l = t.lane p l) : s.lanes = t.lanes := by
  obtain ⟨_, _, _, ⟨⟨_, _⟩, ⟨_, _⟩, ⟨_, _⟩, ⟨_, _⟩⟩, _, _, _, _, _, _, _⟩ := s
  obtain ⟨_, _, _, ⟨⟨_, _⟩, ⟨_, _⟩, ⟨_, _⟩, ⟨_, _⟩⟩, _, _, _, _, _, _, _⟩ := t
  have h1 := h .af .hi; have h2 := h .af .lo; have h3 := h .bc .hi; have h4 := h .bc .lo
  have h5 := h .de .hi; have h6 := h .de .lo; have h7 := h .hl .hi; have h8 := h .hl .lo
  simp only [State.lane, State.lanePair] at h1 h2 h3 h4 h5 h6 h7 h8
  simp [*]

end Sys2Proof.Machine
end

