-- ==== Sys2Proof/Laws/Reset.lean ====
section
/-! SUPPORT. What the body of RESET and the parts of CONSTRUCT do, once. -/

namespace Sys2Proof.Machine

/-! ## What a byte write leaves listed -/

/-- What an address is listed with once it holds `v`. -/
def listedAs (k : Nat) (v : Byte) : Option Byte := if unlistedByte k = some v then none else some v

theorem Memory.find_set (m : Memory) (k j : Nat) (v : Byte) :
    (m.set k v).find j = if j = k then listedAs k v else m.find j := by
  unfold Memory.set listedAs
  split <;> simp [Memory.find_erase, Memory.find_insert]

theorem find_write8 (a : Half) (v : Byte) (s : State) (k : Nat) :
    (write8 a v s).mem.find k = if home a = some k ∧ 0x8000 ≤ a.toNat then listedAs k v else s.mem.find k := by
  rw [write8_eq]
  cases ha : home a with
  | none => simp
  | some j =>
    by_cases hr : a.toNat < 0x8000
    · simp [hr]
    · have h8 : 0x8000 ≤ a.toNat := by omega
      by_cases hk : k = j
      · subst hk; simp [hr, h8, Memory.find_set]
      · simp [hr, Memory.find_set, hk, Ne.symm hk]

/-! ## The table replay (R102) -/

theorem replay_frame (es : List (Half × Byte)) (s : State) : replay es s = { s with mem := (replay es s).mem } := by
  induction es generalizing s with
  | nil => rfl
  | cons e es ih =>
    show replay es (write8 e.1 e.2 s) = { s with mem := (replay es (write8 e.1 e.2 s)).mem }
    rw [ih, write8_frame]

@[simp] theorem replay_romDraw (es : List (Half × Byte)) (s : State) : (replay es s).romDraw = s.romDraw := by
  rw [replay_frame]

theorem wf_replay {s : State} (h : s.mem.wf) (es : List (Half × Byte)) : (replay es s).mem.wf := by
  induction es generalizing s with
  | nil => exact h
  | cons e es ih => exact ih (wf_write8 h e.1 e.2)

/-- An address in the I/O range or the latch is its own home, and no other address reaches it. -/
theorem home_eq_iff_of_high {a : Half} (ha : 0xFF00 ≤ a.toNat) (x : Half) : home x = home a ↔ x = a := by
  constructor
  · intro h
    rw [home_eq, home_eq] at h
    have hx := x.isLt
    rw [if_neg (show ¬(0xE000 ≤ a.toNat ∧ a.toNat < 0xFE00) by omega),
      if_neg (show ¬(0xFEA0 ≤ a.toNat ∧ a.toNat < 0xFF00) by omega)] at h
    apply BitVec.eq_of_toNat_eq
    split_ifs at h <;> simp only [Option.some.injEq] at h <;> omega
  · rintro rfl; rfl

theorem home_of_high {a : Half} (ha : 0xFF00 ≤ a.toNat) : home a = some a.toNat := by
  rw [home_eq, if_neg (by omega), if_neg (by omega)]

/-- After a replay whose entries all lie in the I/O range or the latch, an address no entry names reads as before. -/
theorem byteAt_replay_of_not_mem {es : List (Half × Byte)} (hes : ∀ e ∈ es, 0xFF00 ≤ e.1.toNat) {x : Half}
    (hx : ∀ e ∈ es, e.1 ≠ x) (s : State) : (replay es s).byteAt x = s.byteAt x := by
  induction es generalizing s with
  | nil => rfl
  | cons e es ih =>
    have he := hes e (by simp)
    rw [replay, ih (fun e h => hes e (by simp [h])) (fun e h => hx e (by simp [h])), byteAt_write8, if_neg]
    rintro ⟨h, -⟩
    exact hx e (by simp) ((home_eq_iff_of_high he x).1 h).symm

/-- After such a replay an address that one entry names reads as the entry's value. -/
theorem byteAt_replay_of_mem {es : List (Half × Byte)} (hes : ∀ e ∈ es, 0xFF00 ≤ e.1.toNat)
    (hd : es.Pairwise (fun e f => e.1 ≠ f.1)) {e : Half × Byte} (h : e ∈ es) (s : State) :
    (replay es s).byteAt e.1 = e.2 := by
  induction es generalizing s with
  | nil => simp at h
  | cons f es ih =>
    obtain ⟨hf, hd⟩ := List.pairwise_cons.1 hd
    rcases List.mem_cons.1 h with rfl | h
    · have he := hes e (by simp)
      rw [replay, byteAt_replay_of_not_mem (fun e h => hes e (by simp [h])) (fun f h => (hf f h).symm), byteAt_write8,
        home_of_high he]
      rw [if_pos ⟨rfl, by simp, by omega⟩]
    · exact ih (fun e h => hes e (by simp [h])) hd h _

theorem resetIoTable_high : ∀ e ∈ resetIoTable, 0xFF00 ≤ e.1.toNat := by
  have h : resetIoTable.all (fun e => Nat.ble 0xFF00 e.1.toNat) = true := by decide
  simpa using h

theorem resetIoTable_distinct : resetIoTable.Pairwise (fun e f => e.1 ≠ f.1) := by decide +kernel

/-! ## `Reset()` -/

theorem resetRegisters_frame (s : State) :
    resetRegisters s =
      { s with pc := resetPc, sp := resetSp
               lanes := { af := resetPair .af, bc := resetPair .bc, de := resetPair .de, hl := resetPair .hl } } := by
  simp only [resetRegisters, State.writePair, State.writeLane, State.setLanePair, State.lane, State.lanePair, storedLane,
    resetPair, maskFlags, if_true, reduceCtorEq, if_false]

theorem replay_mem_congr (es : List (Half × Byte)) {s t : State} (h : t.mem = s.mem) :
    (replay es t).mem = (replay es s).mem := by
  induction es generalizing s t with
  | nil => exact h
  | cons e es ih =>
    refine ih ?_
    rw [write8_eq, write8_eq]
    cases home e.1 with
    | none => exact h
    | some k =>
      dsimp only
      split
      · exact h
      · simp [h]

theorem replay_resetRegisters (es : List (Half × Byte)) (s : State) :
    (replay es (resetRegisters (s.emit .info .resetting))).emit .info .finishedResetting =
      { s with pc := resetPc, sp := resetSp
               lanes := { af := resetPair .af, bc := resetPair .bc, de := resetPair .de, hl := resetPair .hl }
               diag := s.diag ++ [(.info, .resetting), (.info, .finishedResetting)]
               mem := (replay es s).mem } := by
  rw [replay_frame, replay_mem_congr es (s := s) (by rw [resetRegisters_frame, State.emit_mem]), resetRegisters_frame]
  simp only [State.emit, List.append_assoc, List.cons_append, List.nil_append]

theorem resetBody_frame (s : State) :
    resetBody s =
      { s with pc := resetPc, sp := resetSp
               lanes := { af := resetPair .af, bc := resetPair .bc, de := resetPair .de, hl := resetPair .hl }
               diag := s.diag ++ [(.info, .resetting), (.info, .finishedResetting)]
               mem := (replay resetIoTable s).mem } :=
  replay_resetRegisters resetIoTable s

section
variable (s : State)
@[simp] theorem resetBody_life : (resetBody s).life = s.life := by rw [resetBody_frame]
@[simp] theorem resetBody_faulted : (resetBody s).faulted = s.faulted := by rw [resetBody_frame]
@[simp] theorem resetBody_variant : (resetBody s).variant = s.variant := by rw [resetBody_frame]
@[simp] theorem resetBody_lanes : (resetBody s).lanes = ⟨resetPair .af, resetPair .bc, resetPair .de, resetPair .hl⟩ := by
  rw [resetBody_frame]
@[simp] theorem resetBody_pc : (resetBody s).pc = resetPc := by rw [resetBody_frame]
@[simp] theorem resetBody_sp : (resetBody s).sp = resetSp := by rw [resetBody_frame]
theorem resetBody_mem : (resetBody s).mem = (replay resetIoTable s).mem := by rw [resetBody_frame]
@[simp] theorem resetBody_diag :
    (resetBody s).diag = s.diag ++ [(.info, .resetting), (.info, .finishedResetting)] := by rw [resetBody_frame]
@[simp] theorem resetBody_romDraw : (resetBody s).romDraw = s.romDraw := by rw [resetBody_frame]
@[simp] theorem resetBody_responses : (resetBody s).responses = s.responses := by rw [resetBody_frame]
@[simp] theorem resetBody_inbox : (resetBody s).inbox = s.inbox := by rw [resetBody_frame]
end

theorem wf_resetBody {s : State} (h : s.mem.wf) : (resetBody s).mem.wf := by
  rw [resetBody_mem]; exact wf_replay h _

theorem byteAt_resetBody (s : State) (x : Half) : (resetBody s).byteAt x = (replay resetIoTable s).byteAt x :=
  State.byteAt_congr (resetBody_mem s) (by rw [resetBody_romDraw, replay_romDraw]) x

/-- Outside the I/O range and the latch RESET changes no byte (R103). -/
theorem byteAt_resetBody_of_low {x : Half} (hx : x.toNat < 0xFF00) (s : State) : (resetBody s).byteAt x = s.byteAt x := by
  rw [byteAt_resetBody, byteAt_replay_of_not_mem resetIoTable_high]
  intro e he h
  have := resetIoTable_high e he
  rw [h] at this
  omega

theorem flags_resetBody_low_bits (s : State) : (resetBody s).flags &&& 0x07#8 = 0#8 := by
  rw [State.flags, resetBody_lanes]; decide

/-- The pairs of a block with the reset lanes (R24). -/
theorem pairs_of_reset_lanes {t : State} (h : t.lanes = ⟨resetPair .af, resetPair .bc, resetPair .de, resetPair .hl⟩) :
    t.pair .af = 0x01B0#16 ∧ t.pair .bc = 0x0013#16 ∧ t.pair .de = 0x00D8#16 ∧ t.pair .hl = 0x014D#16 := by
  refine ⟨?_, ?_, ?_, ?_⟩ <;> simp only [State.pair, State.lane, State.lanePair, h] <;> decide

theorem find_replay_congr (es : List (Half × Byte)) {s t : State} {k : Nat} (h : s.mem.find k = t.mem.find k) :
    (replay es s).mem.find k = (replay es t).mem.find k := by
  induction es generalizing s t with
  | nil => exact h
  | cons e es ih => exact ih (by rw [find_write8, find_write8, h])

/-- Each address either takes the same value from a replay whatever the state before, or is left alone by it. -/
theorem find_replay_cases (es : List (Half × Byte)) (s t : State) (k : Nat) :
    (replay es t).mem.find k = (replay es s).mem.find k ∨
      ((replay es t).mem.find k = t.mem.find k ∧ (replay es s).mem.find k = s.mem.find k) := by
  induction es generalizing s t with
  | nil => exact Or.inr ⟨rfl, rfl⟩
  | cons e es ih =>
    rw [replay, replay]
    by_cases h : home e.1 = some k ∧ 0x8000 ≤ e.1.toNat
    · exact Or.inl (find_replay_congr es (by rw [find_write8, find_write8, if_pos h, if_pos h]))
    · rcases ih (write8 e.1 e.2 s) (write8 e.1 e.2 t) with h' | ⟨h1, h2⟩
      · exact Or.inl h'
      · exact Or.inr ⟨by rw [h1, find_write8, if_neg h], by rw [h2, find_write8, if_neg h]⟩

/-- Replaying twice is replaying once. -/
theorem replay_replay_mem (es : List (Half × Byte)) {s : State} (h : s.mem.wf) :
    (replay es (replay es s)).mem = (replay es s).mem := by
  apply Memory.ext (wf_replay (wf_replay h _) _) (wf_replay h _)
  intro k
  rcases find_replay_cases es s (replay es s) k with h' | ⟨h', -⟩ <;> rw [h']

/-! ## CONSTRUCT (R98) -/

theorem wf_initRom (v : Variant) (image : List Byte) : (initRom v image).wf := by
  cases v
  constructor
  · rw [initRom, List.pairwise_map, List.pairwise_iff_getElem]
    intro i j hi hj hij
    simpa using hij
  · intro c hc
    rw [initRom, List.mem_map] at hc
    obtain ⟨⟨b, i⟩, hbi, rfl⟩ := hc
    have hi : i < romWindow := by
      have h1 := List.snd_lt_of_mem_zipIdx hbi
      have h2 := List.length_take_le romWindow image
      omega
    simp only [romWindow] at hi
    simp only [backed, unlistedByte, if_pos hi]
    simp
    omega

theorem find_map_zipIdx (bs : List Byte) (n k : Nat) :
    Memory.find ((bs.zipIdx n).map (fun bi => (bi.2, bi.1))) k = if n ≤ k then bs[k - n]? else none := by
  induction bs generalizing n with
  | nil => simp
  | cons b bs ih =>
    rw [List.zipIdx_cons, List.map_cons, Memory.find, ih]
    by_cases h : n = k
    · subst h; simp
    · by_cases h' : n ≤ k
      · have h1 : n + 1 ≤ k := by omega
        have h2 : k - n = (k - (n + 1)) + 1 := by omega
        simp [h, h', h1, h2]
      · have h1 : ¬ n + 1 ≤ k := by omega
        simp [h, h', h1]

/-- The ROM cells of a block are the first 32 KiB of its image. -/
theorem find_initRom (v : Variant) (image : List Byte) (k : Nat) :
    (initRom v image).find k = if k < 0x8000 then image[k]? else none := by
  cases v
  rw [initRom, find_map_zipIdx, if_pos (Nat.zero_le k), Nat.sub_zero, List.getElem?_take, romWindow]

theorem wf_fill {m : Memory} (h : m.wf) {lo n : Nat} (hb : ∀ i < n, backed (lo + i) = true) (v : Byte) :
    (m.fill lo n v).wf := by
  induction n with
  | zero => exact h
  | succ n ih => exact Memory.wf_set (ih fun i hi => hb i (by omega)) (hb n (by omega)) v

theorem find_fill (m : Memory) (lo n : Nat) (v : Byte) (k : Nat) :
    (m.fill lo n v).find k = if lo ≤ k ∧ k < lo + n then listedAs k v else m.find k := by
  induction n with
  | zero => rw [Memory.fill, if_neg (by omega)]
  | succ n ih =>
    rw [Memory.fill, Memory.find_set, ih]
    by_cases h : k = lo + n
    · subst h; simp
    · by_cases h' : lo ≤ k ∧ k < lo + n
      · rw [if_neg h, if_pos h', if_pos (by omega)]
      · rw [if_neg h, if_neg h', if_neg (by omega)]

theorem wf_allocatedMemory (v : Variant) (image : List Byte) : (allocatedMemory v image).wf := by
  refine wf_fill (wf_fill (wf_initRom v image) (fun i hi => ?_) _) (fun i hi => ?_) _ <;>
    simp only [Store.base, Store.size] at hi ⊢ <;> simp [backed] <;> omega

theorem resetIoTable_stores : ∀ e ∈ resetIoTable, e.1.toNat < 0xFF80 ∨ e.1.toNat = 0xFFFF := by
  have h : resetIoTable.all (fun e => Nat.blt e.1.toNat 0xFF80 || e.1.toNat == 0xFFFF) = true := by decide
  simpa using h

theorem find_allocatedMemory (v : Variant) (image : List Byte) (k : Nat) :
    (allocatedMemory v image).find k =
      if k < 0x8000 then image[k]? else if (0xFF00 ≤ k ∧ k < 0xFF80) ∨ k = 0xFFFF then listedAs k 0x00#8 else none := by
  rw [allocatedMemory, find_fill, find_fill, find_initRom]
  have hio : Store.io.base = 0xFF00 ∧ Store.io.size = 128 ∧ Store.ie.base = 0xFFFF ∧ Store.ie.size = 1 := ⟨rfl, rfl, rfl, rfl⟩
  obtain ⟨h1, h2, h3, h4⟩ := hio
  simp only [h1, h2, h3, h4]
  by_cases h8 : k < 0x8000
  · have hn1 : ¬ (0xFFFF ≤ k ∧ k < 0xFFFF + 1) := by omega
    have hn2 : ¬ (0xFF00 ≤ k ∧ k < 0xFF00 + 128) := by omega
    simp only [hn1, hn2, h8, if_true, if_false]
  · by_cases hie : k = 0xFFFF
    · subst hie; simp
    · have hn1 : ¬ (0xFFFF ≤ k ∧ k < 0xFFFF + 1) := by omega
      by_cases hi : 0xFF00 ≤ k ∧ k < 0xFF80
      · have hn2 : 0xFF00 ≤ k ∧ k < 0xFF00 + 128 := by omega
        have hn3 : (0xFF00 ≤ k ∧ k < 0xFF80) ∨ k = 0xFFFF := Or.inl hi
        rw [if_neg hn1, if_pos hn2, if_neg h8, if_pos hn3]
      · have hn2 : ¬ (0xFF00 ≤ k ∧ k < 0xFF00 + 128) := by omega
        have hn3 : ¬ ((0xFF00 ≤ k ∧ k < 0xFF80) ∨ k = 0xFFFF) := by omega
        rw [if_neg hn1, if_neg hn2, if_neg h8, if_neg hn3, if_neg h8]

theorem resetIoValue_eq_none {k : Nat} (h1 : ¬ (0xFF00 ≤ k ∧ k < 0xFF80)) (h2 : k ≠ 0xFFFF) : resetIoValue k = none := by
  rw [resetIoValue, Option.map_eq_none_iff, List.find?_eq_none]
  intro e he
  have hs := resetIoTable_stores e he
  have hh := resetIoTable_high e he
  simp only [beq_iff_eq]
  omega

/-! The size check changes `diag` and nothing else (R100). -/

section
variable (image : List Byte) (s : State)
@[simp] theorem romSizeCheck_life : (romSizeCheck image s).life = s.life := by unfold romSizeCheck; split <;> rfl
@[simp] theorem romSizeCheck_faulted : (romSizeCheck image s).faulted = s.faulted := by unfold romSizeCheck; split <;> rfl
@[simp] theorem romSizeCheck_variant : (romSizeCheck image s).variant = s.variant := by unfold romSizeCheck; split <;> rfl
@[simp] theorem romSizeCheck_lanes : (romSizeCheck image s).lanes = s.lanes := by unfold romSizeCheck; split <;> rfl
@[simp] theorem romSizeCheck_pc : (romSizeCheck image s).pc = s.pc := by unfold romSizeCheck; split <;> rfl
@[simp] theorem romSizeCheck_sp : (romSizeCheck image s).sp = s.sp := by unfold romSizeCheck; split <;> rfl
@[simp] theorem romSizeCheck_mem : (romSizeCheck image s).mem = s.mem := by unfold romSizeCheck; split <;> rfl
@[simp] theorem romSizeCheck_romDraw : (romSizeCheck image s).romDraw = s.romDraw := by unfold romSizeCheck; split <;> rfl
@[simp] theorem romSizeCheck_responses : (romSizeCheck image s).responses = s.responses := by unfold romSizeCheck; split <;> rfl
@[simp] theorem romSizeCheck_inbox : (romSizeCheck image s).inbox = s.inbox := by unfold romSizeCheck; split <;> rfl
theorem romSizeCheck_diag :
    (romSizeCheck image s).diag =
      s.diag ++ (if declaredRomSize (image.getD romSizeOffset 0x00#8) = image.length then [] else [(.warning, .romSizeMismatch)]) := by
  unfold romSizeCheck
  split <;> simp_all

end

/-- CONSTRUCT of an image with a header and type 0x00. -/
theorem construct_image {img : List Byte} (h1 : 0x149 ≤ img.length) (h2 : img[0x147]? = some 0x00#8) (s : State) :
    construct (.image img) s = .next { resetBody (romSizeCheck img (allocated .noMBC img s)) with life := .ready } := by
  have ht : img.getD cartTypeOffset 0x00#8 = 0x00#8 := by rw [List.getD_eq_getElem?_getD, cartTypeOffset, h2]; rfl
  simp only [construct, ht, if_neg (show ¬ img.length < 0x149 by omega), variantSelect, if_true]

theorem allocated_mem (v : Variant) (image : List Byte) (s : State) : (allocated v image s).mem = allocatedMemory v image := by
  simp only [allocated]

/-- Just allocated, a ROM byte is the image's byte or the block's draw, and every other byte is zero (R98). -/
theorem cell_allocated (v : Variant) (image : List Byte) (s : State) (k : Nat) :
    (allocated v image s).cell k =
      if k < 0x8000 then (image[k]?).getD (Config.romFill (s.romDraw + 1) k) else 0x00#8 := by
  have hm := allocated_mem v image s
  have hd : (allocated v image s).romDraw = s.romDraw + 1 := rfl
  rw [State.cell, hm, hd, find_allocatedMemory]
  by_cases h8 : k < 0x8000
  · have hu : unlistedByte k = none := by simp only [unlistedByte, h8, if_true]
    simp only [h8, if_true, hu]
    cases image[k]? <;> rfl
  · simp only [h8, if_false]
    by_cases hi : (0xFF00 ≤ k ∧ k < 0xFF80) ∨ k = 0xFFFF
    · simp only [hi, if_true, listedAs]
      by_cases hu : unlistedByte k = some 0x00#8
      · simp [hu]
      · simp only [hu, if_false]
    · have hn := resetIoValue_eq_none (fun h => hi (Or.inl h)) (fun h => hi (Or.inr h))
      simp only [hi, if_false, unlistedByte, h8, hn, Option.getD_none, Option.getD_some]

end Sys2Proof.Machine
end

