-- ==== Sys2Proof/Laws/Step.lean ====
section
/-! SUPPORT. What a step can do, once: the inversion lemmas that every claim about all steps cites. -/

namespace Sys2Proof.Machine

/-- No command faults or is refused. -/
theorem exec_next (i : Instr) (s : State) : ∃ t, exec i s = .next t := by
  cases i <;> simp only [exec, execRead8, execWrite8, execReadPair, execWritePair, execReadByte, execWriteByte,
    execReadFlags, execWriteFlags, execReadPc, execWritePc, execReadSp, execWriteSp, execLookup]
  case read16 a => unfold execRead16; split <;> exact ⟨_, rfl⟩
  case write16 a v => unfold execWrite16; split <;> exact ⟨_, rfl⟩
  case reset => unfold execReset; split <;> exact ⟨_, rfl⟩
  all_goals exact ⟨_, rfl⟩

theorem write16_cases {a v : Half} {s t : State} (h : write16 a v s = .ok t) :
    latchGuard a = false ∧ t = write8 (a + 1#16) (highByte v) (write8 a (lowByte v) s) := by
  unfold write16 at h
  split at h
  · cases h
  · next hg => cases h; exact ⟨by simpa using hg, rfl⟩

theorem write16_error {a v : Half} {s : State} {k : FatalKind} (h : write16 a v s = .error k) :
    latchGuard a = true ∧ k = .ie16Access := by
  unfold write16 at h
  split at h
  · next hg => cases h; exact ⟨hg, rfl⟩
  · cases h

theorem read16_cases {a : Half} {s : State} {r : Half × State} (h : read16 a s = .ok r) :
    latchGuard a = false ∧ r = (joinBytes (s.byteAt (a + 1#16)) (s.byteAt a), s) := by
  rw [read16_eq] at h
  split at h
  · cases h
  · next hg => cases h; exact ⟨by simpa using hg, rfl⟩

theorem read16_error {a : Half} {s : State} {k : FatalKind} (h : read16 a s = .error k) :
    latchGuard a = true ∧ k = .ie16Access := by
  rw [read16_eq] at h
  split at h
  · next hg => cases h; exact ⟨hg, rfl⟩
  · cases h

/-- What each command does, case by case: the one lemma that claims about all commands cite. -/
theorem exec_cases {i : Instr} {s t : State} (h : exec i s = .next t) :
    (∃ a, i = .read8 a ∧ t = s.respond (.value (zextByte (s.byteAt a)))) ∨
    (∃ a, i = .read16 a ∧ latchGuard a = false ∧ t = s.respond (.value (joinBytes (s.byteAt (a + 1#16)) (s.byteAt a)))) ∨
    (∃ a, i = .read16 a ∧ latchGuard a = true ∧ t = raiseFatal .ie16Access s) ∨
    (∃ a b, i = .write8 a b ∧ t = (write8 a b s).respond .done) ∨
    (∃ a v, i = .write16 a v ∧ latchGuard a = false ∧ t = (write8 (a + 1#16) (highByte v) (write8 a (lowByte v) s)).respond .done) ∨
    (∃ a v, i = .write16 a v ∧ latchGuard a = true ∧ t = raiseFatal .ie16Access s) ∨
    (i = .reset ∧ s.life = .ready ∧ t = (resetBody s).respond .done) ∨
    (i = .reset ∧ s.life = .unloaded ∧ t = raiseFatal .resetNoController s) ∨
    (∃ p, i = .readPair p ∧ t = s.respond (.value (s.pair p))) ∨
    (∃ p v, i = .writePair p v ∧ t = (s.writePair p v).respond .done) ∨
    (∃ p l, i = .readByte p l ∧ t = s.respond (.value (zextByte (s.lane p l)))) ∨
    (∃ p l b, i = .writeByte p l b ∧ t = (s.writeLane p l b).respond .done) ∨
    (i = .readFlags ∧ t = s.respond (.value (zextByte s.flags))) ∨
    (∃ f, i = .writeFlags f ∧ t = (s.writeFlags f).respond .done) ∨
    (i = .readPc ∧ t = s.respond (.value s.pc)) ∨
    (∃ v, i = .writePc v ∧ t = ({ s with pc := v } : State).respond .done) ∨
    (i = .readSp ∧ t = s.respond (.value s.sp)) ∨
    (∃ v, i = .writeSp v ∧ t = ({ s with sp := v } : State).respond .done) ∨
    (∃ op, i = .lookup op ∧ t = s.respond (.record (opcodeMeta op))) := by
  cases i with
  | read8 a =>
    simp [exec, execRead8] at h; subst h; simp
  | read16 a =>
    simp only [exec, execRead16, read16_eq] at h
    cases hg : latchGuard a <;> simp [hg] at h <;> subst h <;> simp [hg]
  | write8 a b => simp [exec, execWrite8] at h; subst h; simp
  | write16 a v =>
    simp only [exec, execWrite16, write16] at h
    cases hg : latchGuard a <;> simp [hg] at h <;> subst h <;> simp [hg]
  | reset =>
    simp only [exec, execReset] at h
    cases hl : s.life <;> simp [hl] at h <;> subst h <;> simp
  | readPair p => simp [exec, execReadPair] at h; subst h; simp
  | writePair p v => simp [exec, execWritePair] at h; subst h; simp
  | readByte p l => simp [exec, execReadByte] at h; subst h; simp
  | writeByte p l b => simp [exec, execWriteByte] at h; subst h; simp
  | readFlags => simp [exec, execReadFlags] at h; subst h; simp
  | writeFlags f => simp [exec, execWriteFlags] at h; subst h; simp
  | readPc => simp [exec, execReadPc] at h; subst h; simp
  | writePc v => simp [exec, execWritePc] at h; subst h; simp
  | readSp => simp [exec, execReadSp] at h; subst h; simp
  | writeSp v => simp [exec, execWriteSp] at h; subst h; simp
  | lookup op => simp [exec, execLookup] at h; subst h; simp

/-- What CONSTRUCT can answer with: the block of an image with a header and a specified variant (R98). -/
theorem construct_cases {c : CartInput} {s t : State} (h : construct c s = .next t) :
    ∃ img v, c = .image img ∧ ¬ img.length < 0x149 ∧ variantSelect (img.getD cartTypeOffset 0x00#8) = some v ∧
      t = { resetBody (romSizeCheck img (allocated v img s)) with life := .ready } := by
  cases c with
  | openFailed => simp [construct] at h
  | image img =>
    unfold construct at h
    simp only at h
    split at h
    · cases h
    · next hl =>
      split at h
      · cases h
      · next v hv => cases h; exact ⟨img, v, rfl, hl, hv, rfl⟩

/-- What a step can answer with: the idle block, the block after one decoded command, or a block just constructed. -/
theorem step_cases {s t : State} (h : step s = .next t) :
    s.faulted = none ∧
      ((s.inbox = [] ∧ t = s) ∨
       (∃ w rest i, s.inbox = .command w :: rest ∧ s.life = .ready ∧ decode w = .ok i ∧
          exec i { s with inbox := rest } = .next t) ∨
       (∃ c rest, s.inbox = .construct c :: rest ∧ s.life = .unloaded ∧
          construct c { s with inbox := rest } = .next t)) := by
  unfold step stepBlock at h
  split at h
  · cases h
  · next hf =>
    refine ⟨hf, ?_⟩
    split at h
    · next hi => cases h; exact Or.inl ⟨hi, rfl⟩
    · next op rest hi =>
      unfold takeOp at h
      split at h
      · next w hl =>
        unfold runWord at h
        split at h
        · cases h
        · next i hd => exact Or.inr (Or.inl ⟨w, rest, i, hi, hl, hd, h⟩)
      · cases h
      · next c hl => exact Or.inr (Or.inr ⟨c, rest, hi, hl, h⟩)
      · cases h

end Sys2Proof.Machine
end

