-- ==== Sys2Proof/Tests/Slice0.lean ====
section
/-! SUPPORT. Tests and witnesses. Expected values are the spec's: R74 and R83 (30_encoding.md), the vectors of
95_test_vectors.md, named by their numbers there, and hand calculation from the rule a comment names. -/

namespace Sys2Proof.Tests.Slice0

open Sys2Proof Sys2Proof.Machine

/-! ## Helpers -/

/-- The state after one step that runs the word, if the step has one. -/
def run (s : State) (w : Nat) : Option State :=
  match step (s.withFetchWord 40 w) with
  | .next t => some t
  | .fault _ => none
  | .refused _ => none

/-- The response to the word. -/
def answer (s : State) (w : Nat) : Option Response := (run s w).bind (·.responses.getLast?)

/-- What address `a` reads as after the word. -/
def byteAfter (s : State) (w : Nat) (a : Half) : Option Byte := (run s w).map (·.byteAt a)

/-- What pair `p` reads as after the word. -/
def pairAfter (s : State) (w : Nat) (p : Pair) : Option Half := (run s w).map (·.pair p)

/-- The fault of one step, if it ends in one. -/
def faultOf (s : State) : Option Fault :=
  match step s with
  | .next _ => none
  | .fault f => some f
  | .refused _ => none

/-- The refusal of one step, if it ends in one. -/
def refusalOf (s : State) : Option Refusal :=
  match step s with
  | .next _ => none
  | .fault _ => none
  | .refused r => some r

/-- The reset state with some bytes listed. -/
def withBytes (m : Memory) : State := { State.reset with mem := m }

/-- The reset state with one more host operation to take. -/
def offered (op : HostOp) : State := { State.reset with inbox := [op] }

/-- The faulted block (FX1). -/
def faultedBlock : State := raiseFatal .ie16Access State.reset

/-- The bytes of S0 near the two ROM seams and the header (95 section 0). -/
def romBytes : Memory :=
  [(0x0123, 0x23#8), (0x0146, 0x46#8), (0x0147, 0x00#8), (0x1234, 0x34#8), (0x3FFF, 0xFF#8), (0x4000, 0x00#8),
    (0x4567, 0x67#8), (0x7FFF, 0xFF#8)]

/-- The image of L5: 0x149 bytes, type byte and size byte zero. -/
def shortImage : List Byte := List.replicate 0x147 0x11#8 ++ [0x00#8, 0x00#8]

/-! ## The words of R83 and of 95 section 2, one for each command -/

theorem test_decode_read8 : decodeTableWord 40 0x00C0000000 = some (.read8 0xC000#16) := by decide
theorem test_decode_read8_top : decodeTableWord 40 0x00FFFF0000 = some (.read8 0xFFFF#16) := by decide
theorem test_decode_read16 : decodeTableWord 40 0x10C0000000 = some (.read16 0xC000#16) := by decide
theorem test_decode_write8 : decodeTableWord 40 0x20C000005A = some (.write8 0xC000#16 0x5A#8) := by decide
theorem test_decode_write16 : decodeTableWord 40 0x30C000BEEF = some (.write16 0xC000#16 0xBEEF#16) := by decide
theorem test_decode_reset : decodeTableWord 40 0x4000000000 = some .reset := by decide
theorem test_decode_readPair_af : decodeTableWord 40 0x5000000000 = some (.readPair .af) := by decide
theorem test_decode_readPair_hl : decodeTableWord 40 0x5C00000000 = some (.readPair .hl) := by decide
theorem test_decode_writePair_bc : decodeTableWord 40 0x6400001234 = some (.writePair .bc 0x1234#16) := by decide
theorem test_decode_writePair_de : decodeTableWord 40 0x680000FFFF = some (.writePair .de 0xFFFF#16) := by decide
theorem test_decode_readByte_bc_lo : decodeTableWord 40 0x7400000000 = some (.readByte .bc .lo) := by decide
theorem test_decode_readByte_de_hi : decodeTableWord 40 0x7A00000000 = some (.readByte .de .hi) := by decide
theorem test_decode_writeByte_hl_hi : decodeTableWord 40 0x8E000000AB = some (.writeByte .hl .hi 0xAB#8) := by decide
theorem test_decode_writeByte_af_lo : decodeTableWord 40 0x80000000FF = some (.writeByte .af .lo 0xFF#8) := by decide
theorem test_decode_readFlags : decodeTableWord 40 0x9000000000 = some .readFlags := by decide
theorem test_decode_writeFlags : decodeTableWord 40 0xA0000000F0 = some (.writeFlags 0xF0#8) := by decide
theorem test_decode_readPc : decodeTableWord 40 0xB000000000 = some .readPc := by decide
theorem test_decode_writePc : decodeTableWord 40 0xC000000100 = some (.writePc 0x0100#16) := by decide
theorem test_decode_readSp : decodeTableWord 40 0xD000000000 = some .readSp := by decide
theorem test_decode_writeSp : decodeTableWord 40 0xE00000DFFF = some (.writeSp 0xDFFF#16) := by decide
theorem test_decode_lookup : decodeTableWord 40 0xF000000020 = some (.lookup 0x20#8) := by decide

/-! The encoder, on words of R83. -/

theorem test_encode_write16 : encode (.write16 0xC000#16 0xBEEF#16) = 0x30C000BEEF#40 := by decide
theorem test_encode_writeByte : encode (.writeByte .hl .hi 0xAB#8) = 0x8E000000AB#40 := by decide

/-! ## Well-formedness: one ill-formed word for each row of R74 (most from 95 section 2.5), and records (R107) -/

theorem test_illformed_read8 : wordWf 0x0100000000#40 = false ∧ decodeTableWord 40 0x0100000000 = none := by decide
theorem test_illformed_read8_d : wordWf 0x00C0000001#40 = false ∧ decodeTableWord 40 0x00C0000001 = none := by decide
theorem test_illformed_read16 : wordWf 0x1400000000#40 = false ∧ decodeTableWord 40 0x1400000000 = none := by decide
theorem test_illformed_write8 : wordWf 0x20C0000100#40 = false ∧ decodeTableWord 40 0x20C0000100 = none := by decide
theorem test_illformed_write16 : wordWf 0x3200000000#40 = false ∧ decodeTableWord 40 0x3200000000 = none := by decide
theorem test_illformed_reset : wordWf 0x4000000001#40 = false ∧ decodeTableWord 40 0x4000000001 = none := by decide
theorem test_illformed_readPair : wordWf 0x5200000000#40 = false ∧ decodeTableWord 40 0x5200000000 = none := by decide
theorem test_illformed_writePair : wordWf 0x6200001234#40 = false ∧ decodeTableWord 40 0x6200001234 = none := by decide
theorem test_illformed_readByte : wordWf 0x7100000000#40 = false ∧ decodeTableWord 40 0x7100000000 = none := by decide
theorem test_illformed_writeByte : wordWf 0x8000000100#40 = false ∧ decodeTableWord 40 0x8000000100 = none := by decide
theorem test_illformed_readFlags : wordWf 0x9000000001#40 = false ∧ decodeTableWord 40 0x9000000001 = none := by decide
theorem test_illformed_writeFlags : wordWf 0xA000000100#40 = false ∧ decodeTableWord 40 0xA000000100 = none := by decide
theorem test_illformed_readPc : wordWf 0xB000000001#40 = false ∧ decodeTableWord 40 0xB000000001 = none := by decide
theorem test_illformed_writePc : wordWf 0xC400000000#40 = false ∧ decodeTableWord 40 0xC400000000 = none := by decide
theorem test_illformed_readSp : wordWf 0xD000010000#40 = false ∧ decodeTableWord 40 0xD000010000 = none := by decide
theorem test_illformed_writeSp : wordWf 0xE000010000#40 = false ∧ decodeTableWord 40 0xE000010000 = none := by decide
theorem test_illformed_lookup : wordWf 0xF000000100#40 = false ∧ decodeTableWord 40 0xF000000100 = none := by decide
theorem test_wellformed_write16 : wordWf 0x30C000BEEF#40 = true := by decide

/-- A record of the shape R107 asks for, and its two neighbours outside the bound. -/
def record (length : Nat) : OpcodeRecord := { mnemonic := "X", length := length, baseCycles := 8, longCycles := none }

theorem test_record_length : (record 1).wf = true ∧ (record 3).wf = true := by decide
theorem test_record_length_zero : (record 0).wf = false := by decide
theorem test_record_length_four : (record 4).wf = false := by decide

/-! R112's check: a table with its values passes; one with a wrong taken cost, one with long cycles on an opcode that is no
conditional one, one with an unused opcode that is not the sentinel, and one with a used opcode that is, do not. -/

def r112Table (op : Byte) : OpcodeRecord :=
  match r112Rows.find? (fun row => row.1.contains op) with
  | some row => { mnemonic := "X", length := row.2.1, baseCycles := row.2.2.1, longCycles := some row.2.2.2 }
  | none => if op ∈ unusedOpcodes then record 2 else record 1

theorem test_r112_passes : passesR112 r112Table (record 2) = true := by decide +kernel
theorem test_r112_cost :
    passesR112 (fun op => if op = 0x20#8 then { r112Table op with longCycles := some 8 } else r112Table op) (record 2) =
      false := by decide +kernel
theorem test_r112_conditional :
    passesR112 (fun op => if op = 0x00#8 then { r112Table op with longCycles := some 8 } else r112Table op) (record 2) =
      false := by decide +kernel
theorem test_r112_sentinel :
    passesR112 (fun op => if op = 0xD3#8 then record 1 else r112Table op) (record 2) = false := by decide +kernel
theorem test_r112_sentinel_on_used :
    passesR112 (fun op => if op = 0x00#8 then record 2 else r112Table op) (record 2) = false := by decide +kernel

/-! The canonical form of memory: a cell out of order, a cell equal to its unlisted byte, a cell with no store. -/

theorem test_memory_wf : Memory.wf romBytes := by decide
theorem test_memory_order : ¬ Memory.wf [(0xC001, 0x01#8), (0xC000, 0x01#8)] := by decide
theorem test_memory_unlisted : ¬ Memory.wf [(0xFF40, 0x91#8)] := by decide
theorem test_memory_unbacked : ¬ Memory.wf [(0xE000, 0x01#8)] := by decide

/-! ## One step for each command -/

-- READ8: M9 (the echo shows work RAM), M18 (a reset table value).
theorem test_read8_echo : answer (withBytes [(0xC123, 0x33#8)]) 0x00E1230000 = some (.value 0x0033#16) := by decide
theorem test_read8_io : answer State.reset 0x00FF400000 = some (.value 0x0091#16) := by decide
-- READ16: M28 (low byte at a), M38 (the guard).
theorem test_read16_order : answer (withBytes romBytes) 0x1001460000 = some (.value 0x0046#16) := by decide
theorem test_read16_guard : answer State.reset 0x10FFFE0000 = some (.fault .ie16Access) := by decide
-- WRITE8: M10 (the echo reaches WRAMX), M4 (ROM keeps its byte).
theorem test_write8_echo : byteAfter State.reset 0x20F4560044 0xD456#16 = some 0x44#8 := by decide
theorem test_write8_rom : byteAfter (withBytes romBytes) 0x2012340099 0x1234#16 = some 0x34#8 := by decide
-- WRITE16: M29 (ROM byte dropped, VRAM byte stored), M36 (0xFFFD is not guarded).
theorem test_write16_straddle :
    (run (withBytes romBytes) 0x307FFFA1B2).map (fun t => (t.byteAt 0x7FFF#16, t.byteAt 0x8000#16)) =
      some (0xFF#8, 0xA1#8) := by decide
theorem test_write16_below_guard :
    (run State.reset 0x30FFFD1234).map (fun t => (t.byteAt 0xFFFD#16, t.byteAt 0xFFFE#16, t.faulted)) =
      some (0x34#8, 0x12#8, none) := by decide
-- RESET: L9 (a table byte comes back, work RAM stays), P4 (registers come back).
theorem test_reset_memory :
    (run (withBytes [(0xC000, 0x77#8), (0xFF00, 0x3C#8), (0xFF40, 0x00#8)]) 0x4000000000).map (·.mem) =
      some [(0xC000, 0x77#8), (0xFF00, 0x3C#8)] := by decide +kernel
theorem test_reset_registers :
    (run ({ State.reset with pc := 0x0150#16, sp := 0xC100#16 }.writePair .de 0xFFFF#16) 0x4000000000).map
      (fun t => (t.pc, t.sp, t.pair .de, t.pair .af)) = some (0x0000#16, 0xFFFE#16, 0x00D8#16, 0x01B0#16) := by
  decide +kernel
-- READ_PAIR: RF1.
theorem test_readPair_af : answer State.reset 0x5000000000 = some (.value 0x01B0#16) := by decide
theorem test_readPair_de : answer State.reset 0x5800000000 = some (.value 0x00D8#16) := by decide
-- WRITE_PAIR: RF7 (the flag mask), RF8 (no mask outside AF).
theorem test_writePair_af : pairAfter State.reset 0x60000012FF .af = some 0x12F8#16 := by decide
theorem test_writePair_de : pairAfter State.reset 0x680000FFFF .de = some 0xFFFF#16 := by decide
-- READ_BYTE: RF2, RF3.
theorem test_readByte_af_lo : answer State.reset 0x7000000000 = some (.value 0x00B0#16) := by decide
theorem test_readByte_hl_hi : answer State.reset 0x7E00000000 = some (.value 0x0001#16) := by decide
-- WRITE_BYTE: RF10 (F masked, A kept), RF14.
theorem test_writeByte_af_lo : pairAfter State.reset 0x80000000FF .af = some 0x01F8#16 := by decide
theorem test_writeByte_hl_hi : pairAfter State.reset 0x8E000000AB .hl = some 0xAB4D#16 := by decide
-- READ_FLAGS: RF4.
theorem test_readFlags : answer State.reset 0x9000000000 = some (.value 0x00B0#16) := by decide
-- WRITE_FLAGS: RF15 (A kept), RF18 (bit 3 stored, bits 2:0 cleared).
theorem test_writeFlags_a : pairAfter State.reset 0xA000000080 .af = some 0x0180#16 := by decide
theorem test_writeFlags_mask : (run State.reset 0xA00000000F).map (·.flags) = some 0x08#8 := by decide
-- READ_PC, READ_SP: RF4. WRITE_PC: RF21. WRITE_SP: RF22.
theorem test_readPc : answer State.reset 0xB000000000 = some (.value 0x0000#16) := by decide
theorem test_readSp : answer State.reset 0xD000000000 = some (.value 0xFFFE#16) := by decide
theorem test_writePc : (run State.reset 0xC000000001).map (fun t => (t.pc, t.sp)) = some (0x0001#16, 0xFFFE#16) := by
  decide
theorem test_writeSp : (run State.reset 0xE00000C100).map (fun t => (t.sp, t.pc)) = some (0xC100#16, 0x0000#16) := by
  decide
-- LOOKUP: O1 (a conditional opcode has a long cycle count), O2 (an unused opcode carries the sentinel).
theorem test_lookup_conditional :
    answer State.reset 0xF000000020 = some (.record (opcodeMeta 0x20#8)) ∧ (opcodeMeta 0x20#8).longCycles.isSome = true :=
  ⟨rfl, by decide⟩
theorem test_lookup_unused : answer State.reset 0xF0000000D3 = some (.record sentinelRecord) := rfl

/-! ## Stops and the lifecycle -/

-- 95 section 2.5, FX2, R76, L1 to L6.
theorem test_refused_word : refusalOf (State.reset.withFetchWord 40 0x0100000000) = some .illegalCommand := by decide
theorem test_stuck_faulted :
    faultOf (faultedBlock.withFetchWord 40 0x4000000000) = some (.stuckFaulted .ie16Access) := by decide
theorem test_stuck_unloaded : faultOf (State.unloaded.withFetchWord 40 0x4000000000) = some .stuckUnloaded := by decide
theorem test_construct_openFailed :
    faultOf { State.unloaded with inbox := [.construct .openFailed] } = some .cartOpenFailed := by decide
theorem test_construct_no_header :
    refusalOf { State.unloaded with inbox := [.construct (.image (List.replicate 0x148 0#8))] } = some .headerMissing := by
  decide +kernel
theorem test_construct_variant :
    refusalOf { State.unloaded with inbox := [.construct (.image (List.replicate 0x147 0#8 ++ [0x01#8, 0x00#8]))] } =
      some .variantNotSpecified := by decide +kernel
theorem test_construct_again : faultOf (offered (.construct .openFailed)) = some .constructAgain := by decide

/-- L5: the block of the short image is Ready, with the size advisory before the reset's events. -/
theorem test_construct_short :
    ∃ t, step { State.unloaded with inbox := [.construct (.image shortImage)] } = .next t ∧ t.life = .ready ∧
      t.diag = [(.warning, .romSizeMismatch), (.info, .resetting), (.info, .finishedResetting)] := by
  have h1 : 0x149 ≤ shortImage.length := by decide +kernel
  have h2 : shortImage[0x147]? = some 0x00#8 := by decide +kernel
  have hd : declaredRomSize (shortImage.getD romSizeOffset 0x00#8) ≠ shortImage.length := by decide +kernel
  have hs : step { State.unloaded with inbox := [.construct (.image shortImage)] } =
      construct (.image shortImage) { State.unloaded with inbox := [] } := rfl
  have hc := construct_image h1 h2 { State.unloaded with inbox := [] }
  have he := romSizeCheck_diag shortImage (allocated .noMBC shortImage { State.unloaded with inbox := [] })
  rw [if_neg hd] at he
  rw [hs, hc]
  generalize romSizeCheck shortImage (allocated .noMBC shortImage { State.unloaded with inbox := [] }) = u at he
  exact ⟨_, rfl, rfl, (resetBody_diag u).trans (by rw [he]; rfl)⟩

/-- Its ROM cells are the image's bytes, and none beyond them. -/
theorem test_construct_short_rom :
    (initRom .noMBC shortImage).find 0x146 = some 0x11#8 ∧ (initRom .noMBC shortImage).find 0x148 = some 0x00#8 ∧
      (initRom .noMBC shortImage).find 0x149 = none := by decide +kernel

/-- The declared sizes of L5, L6 and L7. -/
theorem test_declared_size : declaredRomSize 0x00#8 = 32768 ∧ declaredRomSize 0x01#8 = 65536 := by decide

/-- R136: a block with a word still to take has not ended, whatever the word. -/
theorem test_no_end_with_pending_word : (State.reset.withFetchWord 40 0x30FFFF1234).endsWell = false := by decide

/-! The codes of R115. -/

theorem test_fatal_codes :
    FatalKind.cartOpenFailed.code = 1 ∧ FatalKind.resetNoController.code = 2 ∧ FatalKind.ie16Access.code = 3 := by decide

/-! ## Textual form (R83) -/

theorem test_print_write8 : printCommand (.write8 0xC000#16 0x5A#8) = "WRITE8 0xC000, 0x5A".toList := by decide
theorem test_parse_writeByte : parseCommand "WRITE_BYTE HL, HI, 0xAB".toList = some (.writeByte .hl .hi 0xAB#8) := by
  decide
theorem test_parse_construct : parseCommand "CONSTRUCT x".toList = none := by decide

/-! ## Witnesses: for every obligation with hypotheses, a concrete state and operands that meet them -/

theorem witness_EncodeOfDecodeIsIdentity : decode 0x8E000000AB#40 = .ok (.writeByte .hl .hi 0xAB#8) := rfl
theorem witness_DecodeAcceptsExactlyWellFormedWords : wordWf 0x8E000000AB#40 = true ∧ wordWf 0x8F000000AB#40 = false := by
  decide
theorem witness_ExactlyOneRowFitsWellFormedWord : wordWf 0x30FFFFFFFF#40 = true := by decide

theorem witness_StepRunsDecodedCommand :
    (offered (.command 0x4000000000#40)).life = .ready ∧ (offered (.command 0x4000000000#40)).faulted = none ∧
      (offered (.command 0x4000000000#40)).inbox = [.command 0x4000000000#40] ∧ decode 0x4000000000#40 = .ok .reset :=
  ⟨rfl, rfl, rfl, rfl⟩
theorem witness_PlacedWordIsRunNext :
    State.reset.life = .ready ∧ State.reset.faulted = none ∧ decodeTableWord 40 0xF0000000FF = some (.lookup 0xFF#8) :=
  ⟨rfl, rfl, rfl⟩
theorem witness_IllFormedWordIsRefused :
    (offered (.command 0x0100000000#40)).life = .ready ∧ (offered (.command 0x0100000000#40)).faulted = none ∧
      (offered (.command 0x0100000000#40)).inbox = [.command 0x0100000000#40] ∧ wordWf 0x0100000000#40 = false :=
  ⟨rfl, rfl, rfl, by decide⟩
theorem witness_StuckBlockTakesNoCommand_faulted : faultedBlock.faulted = some .ie16Access := rfl
theorem witness_StuckBlockTakesNoCommand_unloaded :
    (State.unloaded.withFetchWord 40 0).faulted = none ∧ (State.unloaded.withFetchWord 40 0).life = .unloaded ∧
      (State.unloaded.withFetchWord 40 0).inbox = [.command 0#40] := ⟨rfl, rfl, rfl⟩
theorem witness_IdleBlockKeepsItsState : State.reset.faulted = none ∧ State.reset.inbox = [] := ⟨rfl, rfl⟩
theorem witness_StepTakesConstructOnce_unloaded :
    ({ State.unloaded with inbox := [.construct .openFailed] } : State).faulted = none ∧
      ({ State.unloaded with inbox := [.construct .openFailed] } : State).life = .unloaded := ⟨rfl, rfl⟩
theorem witness_StepTakesConstructOnce_ready :
    (offered (.construct .openFailed)).faulted = none ∧ (offered (.construct .openFailed)).life = .ready ∧
      (offered (.construct .openFailed)).inbox = [.construct .openFailed] := ⟨rfl, rfl, rfl⟩

/-- The invariant holds of a block about to fault, and that step has a next state. -/
theorem witness_EveryStepKeepsInvariant :
    ∃ s t : State, s.Inv ∧ step s = .next t ∧ t.faulted = some .ie16Access :=
  ⟨State.reset.withFetchWord 40 0x10FFFE0000, _,
    ⟨Memory.wf_nil, by unfold State.flagsClean; decide, fun k hk => by cases hk⟩, rfl, rfl⟩
theorem witness_NoStepChangesRom :
    ∃ s t : State, s.life = .ready ∧ step s = .next t ∧ t.byteAt 0x7FFF#16 = 0xFF#8 :=
  ⟨(withBytes romBytes).withFetchWord 40 0x207FFF0055, _, rfl, rfl, by decide⟩
theorem witness_OnlyNamedCommandsUseFlags_neither :
    ∃ t : State, exec (.writeByte .af .hi 0x12#8) State.reset = .next t ∧ writesFlags (.writeByte .af .hi 0x12#8) = false ∧
      readsFlags (.writeByte .af .hi 0x12#8) = false := ⟨_, rfl, rfl, rfl⟩
theorem witness_OnlyNamedCommandsUseFlags_writes :
    ∃ t : State, exec (.writePair .af 0x12FF#16) State.reset = .next t ∧ writesFlags (.writePair .af 0x12FF#16) = true ∧
      Instr.writePair .af 0x12FF#16 ≠ .reset := ⟨_, rfl, rfl, fun h => Instr.noConfusion h⟩
theorem witness_OnlyNamedCommandsUseFlags_reset :
    (∃ t : State, exec .reset State.reset = .next t) ∧ writesFlags .reset = true ∧ State.reset.life = .ready :=
  ⟨⟨_, rfl⟩, rfl, rfl⟩
theorem witness_OnlyNamedCommandsUseFlags_unloaded :
    ∃ t : State, exec .reset State.unloaded = .next t ∧ State.unloaded.life = .unloaded := ⟨_, rfl, rfl⟩
theorem witness_OnlyNamedCommandsMovePcAndSp :
    ∃ t : State, exec (.writeSp 0x0000#16) State.reset = .next t ∧ Instr.writeSp 0x0000#16 ≠ .reset ∧
      (∀ v, Instr.writeSp 0x0000#16 ≠ .writePc v) ∧ t.sp = 0x0000#16 :=
  ⟨_, rfl, by decide, fun _ h => Instr.noConfusion h, rfl⟩
theorem witness_StoreByteChangesOnlyByRoutedWrite_write8 :
    ∃ t : State, exec (.write8 0xE000#16 0x01#8) State.reset = .next t ∧ 0 < Store.wram0.size ∧
      t.storeByte .wram0 0 ≠ State.reset.storeByte .wram0 0 := ⟨_, rfl, by decide, by decide⟩
theorem witness_StoreByteChangesOnlyByRoutedWrite_write16 :
    ∃ t : State, exec (.write16 0x9FFF#16 0x1122#16) State.reset = .next t ∧ 0x1FFF < Store.vram.size ∧ 0 < Store.eram.size ∧
      t.storeByte .vram 0x1FFF ≠ State.reset.storeByte .vram 0x1FFF ∧ t.storeByte .eram 0 ≠ State.reset.storeByte .eram 0 :=
  ⟨_, rfl, by decide, by decide, by decide, by decide⟩
theorem witness_StoreByteChangesOnlyByRoutedWrite_reset :
    ∃ t : State, exec .reset (withBytes [(0xFF40, 0x00#8)]) = .next t ∧ 0x40 < Store.io.size ∧
      t.storeByte .io 0x40 ≠ (withBytes [(0xFF40, 0x00#8)]).storeByte .io 0x40 := ⟨_, rfl, by decide, by decide +kernel⟩
theorem witness_CommandsOnlyAppendToDiag :
    ∃ t : State, exec .reset State.reset = .next t ∧ t.diag.length = 4 := ⟨_, rfl, by decide +kernel⟩
theorem witness_EachCommandGivesOneResponse :
    ∃ t : State, exec (.write16 0xFFFF#16 0x1234#16) State.reset = .next t ∧ t.responses = [.fault .ie16Access] :=
  ⟨_, rfl, rfl⟩
theorem witness_OnlyLatchAccessIsFatal :
    ∃ t : State, exec (.read16 0xFFFE#16) State.reset = .next t ∧ State.reset.life = .ready ∧ State.reset.faulted = none ∧
      t.faulted = some .ie16Access := ⟨_, rfl, rfl, rfl, rfl⟩
theorem witness_CommandsKeepLifeVariantAndDraw :
    ∃ t : State, exec (.writePc 0xFFFF#16) State.reset = .next t ∧ t.pc = 0xFFFF#16 := ⟨_, rfl, rfl⟩

/-! The region table at both ends of each row (R38), and the byte read there (R84). -/

theorem witness_EveryAddressHasOneRegion_first :
    decodeAddr 0x0000#16 = (.rom0, 0) ∧ decodeAddr 0x4000#16 = (.romx, 0) ∧ decodeAddr 0x8000#16 = (.vram, 0) ∧
    decodeAddr 0xA000#16 = (.eram, 0) ∧ decodeAddr 0xC000#16 = (.wram0, 0) ∧ decodeAddr 0xD000#16 = (.wramx, 0) ∧
    decodeAddr 0xE000#16 = (.echo, 0) ∧ decodeAddr 0xFE00#16 = (.oam, 0) ∧ decodeAddr 0xFEA0#16 = (.unusable, 0) ∧
    decodeAddr 0xFF00#16 = (.io, 0) ∧ decodeAddr 0xFF80#16 = (.hram, 0) ∧ decodeAddr 0xFFFF#16 = (.ie, 0) := by decide
theorem witness_EveryAddressHasOneRegion_last :
    decodeAddr 0x3FFF#16 = (.rom0, 0x3FFF) ∧ decodeAddr 0x7FFF#16 = (.romx, 0x3FFF) ∧ decodeAddr 0x9FFF#16 = (.vram, 0x1FFF) ∧
    decodeAddr 0xBFFF#16 = (.eram, 0x1FFF) ∧ decodeAddr 0xCFFF#16 = (.wram0, 0xFFF) ∧ decodeAddr 0xDFFF#16 = (.wramx, 0xFFF) ∧
    decodeAddr 0xFDFF#16 = (.echo, 0x1DFF) ∧ decodeAddr 0xFE9F#16 = (.oam, 0x9F) ∧ decodeAddr 0xFEFF#16 = (.unusable, 0x5F) ∧
    decodeAddr 0xFF7F#16 = (.io, 0x7F) ∧ decodeAddr 0xFFFE#16 = (.hram, 0x7E) := by decide

/-- A byte at the first address of each store. -/
def firstBytes : State :=
  withBytes [(0x0000, 0x10#8), (0x4000, 0x11#8), (0x8000, 0x12#8), (0xA000, 0x13#8), (0xC000, 0x14#8), (0xD000, 0x15#8),
    (0xFE00, 0x16#8), (0xFF00, 0x17#8), (0xFF80, 0x18#8), (0xFFFF, 0x19#8)]

/-- A byte at the last address of each store, and at 0xDDFF, which the last echo address shows. -/
def lastBytes : State :=
  withBytes [(0x3FFF, 0x20#8), (0x7FFF, 0x21#8), (0x9FFF, 0x22#8), (0xBFFF, 0x23#8), (0xCFFF, 0x24#8), (0xDDFF, 0x25#8),
    (0xDFFF, 0x26#8), (0xFE9F, 0x27#8), (0xFF7F, 0x28#8), (0xFFFE, 0x29#8)]

theorem witness_Read8RespondsTheRegionsByte_first :
    ([0x0000#16, 0x4000#16, 0x8000#16, 0xA000#16, 0xC000#16, 0xD000#16, 0xE000#16, 0xF000#16, 0xFE00#16, 0xFEA0#16, 0xFF00#16,
        0xFF80#16, 0xFFFF#16].map firstBytes.byteAt) =
      [0x10#8, 0x11#8, 0x12#8, 0x13#8, 0x14#8, 0x15#8, 0x14#8, 0x15#8, 0x16#8, 0x00#8, 0x17#8, 0x18#8, 0x19#8] := by
  decide
theorem witness_Read8RespondsTheRegionsByte_last :
    ([0x3FFF#16, 0x7FFF#16, 0x9FFF#16, 0xBFFF#16, 0xCFFF#16, 0xDFFF#16, 0xEFFF#16, 0xFDFF#16, 0xFE9F#16, 0xFEFF#16, 0xFF7F#16,
        0xFFFE#16].map lastBytes.byteAt) =
      [0x20#8, 0x21#8, 0x22#8, 0x23#8, 0x24#8, 0x26#8, 0x24#8, 0x25#8, 0x27#8, 0x00#8, 0x28#8, 0x29#8] := by
  decide

theorem witness_Write8StoresOneByte :
    Writable 0xF456#16 ∧ reach 0xD456#16 = reach 0xF456#16 ∧ ¬ (Writable 0x7FFF#16 ∧ reach 0x7FFF#16 = reach 0x7FFF#16) := by
  refine ⟨⟨by decide, by decide⟩, by decide, fun h => absurd h.1.2 (by decide)⟩
theorem witness_RomWriteChangesNothing : (0x7FFF#16 : Half).toNat < 0x8000 ∧ ¬ (0x8000#16 : Half).toNat < 0x8000 := by decide
theorem witness_EchoMirrorsWorkRam :
    (0xE000 ≤ (0xFDFF#16 : Half).toNat ∧ (0xFDFF#16 : Half).toNat < 0xFE00) ∧
      (0xDE00 ≤ (0xDE00#16 : Half).toNat ∧ (0xDE00#16 : Half).toNat < 0xE000 ∧ reach 0xDE00#16 = some (.wramx, 0xE00)) := by
  decide
theorem witness_UnusableRangeIsInert :
    (0xFEA0 ≤ (0xFEA0#16 : Half).toNat ∧ (0xFEA0#16 : Half).toNat < 0xFF00) ∧
      (0xFEA0 ≤ (0xFEFF#16 : Half).toNat ∧ (0xFEFF#16 : Half).toNat < 0xFF00) := by decide
theorem witness_UnimplementedRegionDegrades :
    (fun r : Region => r != .vram) (decodeAddr 0x8000#16).1 = false ∧ (decodeAddr 0x8000#16).1 ≠ .unusable := by decide
/-- The last echo address, with the echo implemented and the work RAM region it reaches not. -/
theorem witness_UnimplementedRegionDegrades_echo :
    (decodeAddr 0xFDFF#16).1 = .echo ∧ (fun r : Region => r != .wramx) .echo = true ∧
      reach 0xFDFF#16 = some (.wramx, 0xDFF) ∧ (fun r : Region => r != .wramx) Store.wramx.region = false := by decide
theorem witness_Read16ComposesTwoBytes : (0xFFFD#16 : Half) ≠ 0xFFFE#16 ∧ (0xFFFD#16 : Half) ≠ 0xFFFF#16 := by decide
/-- Both bytes stored (0xFFFD), the first dropped (0x7FFF), the second dropped (0xFE9F). -/
theorem witness_Write16StoresTwoBytes :
    (Writable 0xFFFD#16 ∧ Writable (0xFFFD#16 + 1#16)) ∧ (¬ Writable 0x7FFF#16 ∧ Writable (0x7FFF#16 + 1#16)) ∧
      (Writable 0xFE9F#16 ∧ ¬ Writable (0xFE9F#16 + 1#16)) := by
  refine ⟨⟨⟨by decide, by decide⟩, by decide, by decide⟩,
    ⟨fun h => absurd h.2 (by decide), by decide, by decide⟩,
    ⟨by decide, by decide⟩, fun h => absurd h.1 (by decide)⟩
theorem witness_SixteenBitAccessIsLittleEndian : latchGuard 0xFFFD#16 = false := by decide
theorem witness_LatchAccessEntersFault :
    ((0xFFFE#16 : Half) = 0xFFFE#16 ∨ (0xFFFE#16 : Half) = 0xFFFF#16) ∧
      ((0xFFFF#16 : Half) = 0xFFFE#16 ∨ (0xFFFF#16 : Half) = 0xFFFF#16) := by decide
theorem witness_Write16ThenRead16RoundTrip :
    (decodeAddr 0xFFFD#16).1 ∈ [Region.vram, .eram, .wram0, .wramx, .echo, .oam, .hram, .io] ∧
      (decodeAddr (0xFFFD#16 + 1#16)).1 = (decodeAddr 0xFFFD#16).1 := by decide

/-! Registers. -/

theorem witness_WritePairStoresBothLanes : Pair.bc ≠ .af ∧ (State.reset.writePair .af 0xFFFF#16).lane .bc .lo = 0x13#8 := by
  decide
theorem witness_ReadByteRespondsOneLane : (State.reset.writePair .af 0xFFFF#16).flagsClean := by
  unfold State.flagsClean; decide
theorem witness_WriteByteStoresOneLane : ¬ (Pair.af = .af ∧ Lane.hi = .lo) ∧ ¬ (Pair.bc = .af ∧ Lane.lo = .lo) := by decide
theorem witness_LaneWriteLeavesTheRestAlone : Lane.hi ≠ .lo ∧ Pair.af ≠ .hl := by decide
theorem witness_FlagCommandsReadAndWriteF : Pair.hl ≠ .af := by decide

/-! Lifecycle. -/

theorem witness_ResetRestoresThePostBootState :
    State.reset.life = .ready ∧ (0xFF40#16, 0x91#8) ∈ resetIoTable ∧ ∀ e ∈ resetIoTable, e.1 ≠ 0xFF00#16 :=
  ⟨rfl, by simp [resetIoTable, resetIoTableLow, resetIoTableHigh], by simp [resetIoTable, resetIoTableLow, resetIoTableHigh]⟩
theorem witness_ResetIsIdempotent : (withBytes romBytes).life = .ready ∧ (withBytes romBytes).mem.wf :=
  ⟨rfl, by decide⟩
theorem witness_ResetWithNoControllerIsFatal : State.unloaded.life = .unloaded := rfl
theorem witness_ConstructBuildsReadyBlock : 0x149 ≤ shortImage.length ∧ shortImage[0x147]? = some 0x00#8 := by decide +kernel
theorem witness_ConstructStopsInOrder :
    (List.replicate 0x148 0x00#8).length < 0x149 ∧
      0x149 ≤ (List.replicate 0x149 0x01#8).length ∧ (List.replicate 0x149 0x01#8)[0x147]? = some 0x01#8 ∧
      (0x01#8 : Byte) ≠ 0x00#8 := by decide +kernel
theorem witness_ResetStateHoldsThePostBootValues :
    (0xFF26#16, 0xF1#8) ∈ resetIoTable ∧ 0x8000 ≤ (0xFEA0#16 : Half).toNat ∧ ∀ e ∈ resetIoTable, e.1 ≠ 0xFEA0#16 :=
  ⟨by simp [resetIoTable, resetIoTableLow, resetIoTableHigh], by decide, by simp [resetIoTable, resetIoTableLow, resetIoTableHigh]⟩
theorem witness_OpcodeTableKeepsItsLimits :
    0xD8#8 ∈ conditionalOpcodes ∧ 0xFD#8 ∈ unusedOpcodes ∧ 0x00#8 ∉ conditionalOpcodes ∧ 0x00#8 ∉ unusedOpcodes := by decide
theorem witness_RunEndsWellWhenRequesterStops : State.reset.endsWell = true := by decide

end Sys2Proof.Tests.Slice0
end

section
/-! Reads of the register file: what a pair read consists of (R15, R18) and what READ_PAIR and READ_FLAGS answer with. -/

namespace Sys2Proof.Machine

/-- R15 in the words of the spec, with `joinBytes` written out. -/
theorem State.pair_eq_lanes (s : State) (p : Pair) :
    s.pair p = ((s.lane p .hi).setWidth 16 <<< 8) ||| (s.lane p .lo).setWidth 16 := rfl

@[simp] theorem State.lowByte_pair (s : State) (p : Pair) : lowByte (s.pair p) = s.lane p .lo :=
  lowByte_joinBytes (s.lane p .hi) (s.lane p .lo)

theorem exec_readPair (p : Pair) (s : State) : exec (.readPair p) s = .next (s.respond (.value (s.pair p))) := rfl

theorem exec_readFlags (s : State) : exec .readFlags s = .next (s.respond (.value (zextByte s.flags))) := rfl

/-- Settles O35: a pair's low byte is its low lane, and F, which READ_FLAGS answers with, is AF's low lane. -/
theorem flagsAreTheLowLaneOfAF : Obligations.FlagsAreTheLowLaneOfAF := by
  intro s
  constructor
  · exact (s.lowByte_pair .af).symm
  · rw [exec_readFlags, State.flags_eq, State.respond]

/-- Settles O36: READ_PAIR answers with the pair, and the pair is the concatenation of its lanes. -/
theorem readPairRespondsBothLanes : Obligations.ReadPairRespondsBothLanes := by
  intro s p
  constructor
  · exact s.pair_eq_lanes p
  · rw [exec_readPair, State.pair_eq_lanes, State.respond]

end Sys2Proof.Machine
end

section
/-! Memory commands: byte writes to ROM (R43) and 16-bit accesses outside the latch guard (R54). -/

namespace Sys2Proof.Machine

/-- NoMBC, the one variant there is, drops a ROM write (R64). -/
@[simp] theorem romWrite_eq_self (v : Variant) (a : Half) (b : Byte) (s : State) : romWrite v a b s = s := by
  cases v
  rfl

theorem write8_of_rom {a : Half} (ha : a.toNat < 0x8000) (b : Byte) (s : State) : write8 a b s = s := by
  rw [write8_eq]
  cases home a with
  | none => rfl
  | some k => exact if_pos ha

theorem exec_write8 (a : Half) (b : Byte) (s : State) : exec (.write8 a b) s = .next ((write8 a b s).respond .done) := rfl

theorem exec_read16_of_not_guarded {a : Half} (h : latchGuard a = false) (s : State) :
    exec (.read16 a) s = .next (s.respond (.value (joinBytes (s.byteAt (a + 1#16)) (s.byteAt a)))) := by
  simp [exec, execRead16, read16_eq, h]

theorem exec_write16_of_not_guarded {a : Half} (h : latchGuard a = false) (v : Half) (s : State) :
    exec (.write16 a v) s = .next ((write8 (a + 1#16) (highByte v) (write8 a (lowByte v) s)).respond .done) := by
  simp [exec, execWrite16, write16, h]

/-- Settles O26: below 0x8000 the byte write and the variant's ROM write leave the state alone, so WRITE8 only answers. -/
theorem romWriteChangesNothing : Obligations.RomWriteChangesNothing := by
  intro s a b ha
  have hw : write8 a b s = s := write8_of_rom ha b s
  refine ⟨hw, romWrite_eq_self s.variant a b s, ?_⟩
  rw [exec_write8, hw, State.respond]

/-- Settles O32: READ16 answers with the join of the byte at `a + 1` and the byte at `a`, whose low and high bytes those are;
WRITE16 splits its datum the same way. -/
theorem sixteenBitAccessIsLittleEndian : Obligations.SixteenBitAccessIsLittleEndian := by
  intro s a hg
  constructor
  · refine ⟨joinBytes (s.byteAt (a + 1#16)) (s.byteAt a), ?_, ?_, ?_⟩
    · rw [exec_read16_of_not_guarded hg, State.respond]
    · rw [lowByte_joinBytes, read8_byte]
    · rw [highByte_joinBytes, read8_byte]
  · intro v
    exact exec_write16_of_not_guarded hg v s

end Sys2Proof.Machine
end

section
/-! The encoding (30_encoding.md): decoder and encoder undo each other, and the decoder accepts the words that the mask and
match columns call well formed. -/

namespace Sys2Proof

/-- Settles O1: the packed word holds the command's OP and operands in their fields and zero in the fields its row does not
use, so the decoder takes the command's row and reads the operands back. -/
theorem decodeOfEncodeIsIdentity : Obligations.DecodeOfEncodeIsIdentity := by
  intro i
  cases i <;> simp [encode, decode, whenZero]

theorem fieldOP_eq_of_toNat {w : CmdWord} {n : Nat} (h : (fieldOP w).toNat = n) : fieldOP w = BitVec.ofNat 4 n := by
  rw [← h, BitVec.ofNat_toNat, BitVec.setWidth_eq]

/-- Settles O2: every row asks for a zero reserved bit, so the word is the packing of its fields; the command holds the fields
its row uses, and the row's OP and zeros are the others. -/
theorem encodeOfDecodeIsIdentity : Obligations.EncodeOfDecodeIsIdentity := by
  intro w i h
  unfold decode at h
  split at h
  case h_17 => cases h
  all_goals
    next hop =>
    obtain ⟨hz, rfl⟩ := whenZero_ok h
    have hfieldOP := fieldOP_eq_of_toNat hop
    have hfieldR : fieldR w = 0#1 := by simp_all
    refine Eq.trans ?_ (packWord_fields hfieldR)
    simp_all [encode, byteInD_fieldDLow]

theorem wordWf_encode (i : Instr) : wordWf (encode i) = true := by
  cases i with
  | read8 a => exact Laws.EncodeFits.read8 a
  | read16 a => exact Laws.EncodeFits.read16 a
  | write8 a b => exact Laws.EncodeFits.write8 a b
  | write16 a v => exact Laws.EncodeFits.write16 a v
  | reset => exact Laws.EncodeFits.reset
  | readPair p => exact Laws.EncodeFits.readPair p
  | writePair p v => exact Laws.EncodeFits.writePair p v
  | readByte p l => exact Laws.EncodeFits.readByte p l
  | writeByte p l b => exact Laws.EncodeFits.writeByte p l b
  | readFlags => exact Laws.EncodeFits.readFlags
  | writeFlags f => exact Laws.EncodeFits.writeFlags f
  | readPc => exact Laws.EncodeFits.readPc
  | writePc v => exact Laws.EncodeFits.writePc v
  | readSp => exact Laws.EncodeFits.readSp
  | writeSp v => exact Laws.EncodeFits.writeSp v
  | lookup op => exact Laws.EncodeFits.lookup op

theorem wordWf_of_decode {w : CmdWord} {i : Instr} (h : decode w = .ok i) : wordWf w = true := by
  rw [← encodeOfDecodeIsIdentity w i h]
  exact wordWf_encode i

/-- A row that fits a word fixes each field that its mask covers. -/
theorem fields_of_fits {r : CmdRow} {w : CmdWord} (h : r.fits w = true) :
    (fieldOP r.mask = 0xF#4 → fieldOP w = fieldOP r.pattern) ∧
    (fieldP r.mask = 3#2 → fieldP w = fieldP r.pattern) ∧
    (fieldL r.mask = 1#1 → fieldL w = fieldL r.pattern) ∧
    (fieldR r.mask = 1#1 → fieldR w = fieldR r.pattern) ∧
    (fieldA r.mask = 0xFFFF#16 → fieldA w = fieldA r.pattern) ∧
    (fieldD r.mask = 0xFFFF#16 → fieldD w = fieldD r.pattern) ∧
    (fieldDHigh r.mask = 0xFF#8 → fieldDHigh w = fieldDHigh r.pattern) := by
  have hand : w &&& r.mask = r.pattern := beq_iff_eq.1 h
  exact ⟨field_of_fits hand, field_of_fits hand, field_of_fits hand, field_of_fits hand, field_of_fits hand,
    field_of_fits hand, field_of_fits hand⟩

/-- Each row of R74's table, mask and match, asks for what the decoder asks for under the row's OP. -/
theorem decode_of_wordWf {w : CmdWord} (h : wordWf w = true) : ∃ i, decode w = .ok i := by
  obtain ⟨r, hrow, hfits⟩ := List.any_eq_true.1 h
  obtain ⟨hop, hp, hl, hr, ha, hd, hdh⟩ := fields_of_fits hfits
  simp only [cmdRows, List.cons_append, List.nil_append, List.mem_cons, List.not_mem_nil, or_false] at hrow
  rcases hrow with rfl | rfl | rfl | rfl | rfl | rfl | rfl | rfl | rfl | rfl | rfl | rfl | rfl | rfl | rfl | rfl <;>
  · simp [fieldOP, fieldP, fieldL, fieldR, fieldA, fieldD, fieldDHigh] at hop hp hl hr ha hd hdh
    simp [decode, whenZero, fieldOP, fieldP, fieldL, fieldR, fieldA, fieldD, fieldDHigh, *]

theorem decode_of_not_wordWf {w : CmdWord} (h : wordWf w = false) : decode w = .error .illegalCommand := by
  cases hd : decode w with
  | error e => cases e; rfl
  | ok i => rw [wordWf_of_decode hd] at h; cases h

/-- Settles O3: what decodes is the encoding of a command, which fits a row, and a word that a row fits passes that row's test
in the decoder. -/
theorem decodeAcceptsExactlyWellFormedWords : Obligations.DecodeAcceptsExactlyWellFormedWords := by
  intro w
  refine ⟨⟨?_, decode_of_wordWf⟩, decode_of_not_wordWf⟩
  rintro ⟨i, hd⟩
  exact wordWf_of_decode hd

theorem cmdRows_mask_op : ∀ r ∈ cmdRows, fieldOP r.mask = 0xF#4 := by decide

theorem cmdRows_op_inj : ∀ r ∈ cmdRows, ∀ r' ∈ cmdRows, fieldOP r'.pattern = fieldOP r.pattern → r' = r := by decide

theorem op_of_fits {r : CmdRow} (hr : r ∈ cmdRows) {w : CmdWord} (h : r.fits w = true) : fieldOP w = fieldOP r.pattern :=
  (fields_of_fits h).1 (cmdRows_mask_op r hr)

/-- Settles O4: two rows that fit one word have its OP, and the rows differ in OP. -/
theorem exactlyOneRowFitsWellFormedWord : Obligations.ExactlyOneRowFitsWellFormedWord := by
  intro w h
  obtain ⟨r, hr, hfits⟩ := List.any_eq_true.1 h
  refine ⟨r, hr, hfits, fun r' hr' hfits' => ?_⟩
  exact cmdRows_op_inj r hr r' hr' ((op_of_fits hr' hfits').symm.trans (op_of_fits hr hfits))

/-- Settles O5: the decoder evaluates on each of the ten words. -/
theorem sampleWordsDecode : Obligations.SampleWordsDecode := by
  unfold Obligations.SampleWordsDecode
  decide

end Sys2Proof
end

section
/-! The textual form (R83): a printed line splits into the mnemonic and the operand texts it was made of. -/

namespace Sys2Proof.Machine

theorem splitFirst_of_not_mem {c : Char} {t : List Char} (h : c ∉ t) : splitFirst c t = (t, none) := by
  induction t with
  | nil => rfl
  | cons x t ih =>
    have hx : x ≠ c := (List.ne_of_not_mem_cons h).symm
    simp [splitFirst, hx, ih (List.not_mem_of_not_mem_cons h)]

theorem space_not_mem_mnemonicText (i : Instr) : ' ' ∉ mnemonicText i := by
  cases i <;> simp [mnemonicText]

theorem plainText_operandTexts (i : Instr) : ∀ o ∈ operandTexts i, PlainText o := by
  cases i <;> simp [operandTexts, plainText_half, plainText_byte, plainText_pair, plainText_lane]

/-- The mnemonic of a command picks the form that reads the command's own operands back. -/
theorem parseOperands_of_mnemonicText (i : Instr) :
    ∃ form, mnemonicForms.find? (fun k => mnemonicText k == mnemonicText i) = some form ∧
      parseOperands form (operandTexts i) = some i := by
  cases i <;>
    exact ⟨_, rfl, by
      simp [parseOperands, operandTexts, parseNumber_halfText, parseNumber_byteText, parsePair_pairText, parseLane_laneText]⟩

/-- Settles O6: the line splits into the mnemonic, which picks the form, and the operand texts, which are read back. -/
theorem printedLineParsesBack : Obligations.PrintedLineParsesBack := by
  intro i
  obtain ⟨form, hform, hparse⟩ := parseOperands_of_mnemonicText i
  have hspace := space_not_mem_mnemonicText i
  cases hops : operandTexts i with
  | nil =>
    rw [hops] at hparse
    simp [printCommand, parseCommand, hops, splitFirst_of_not_mem hspace, hform, hparse]
  | cons o os =>
    have hsplit : splitOperands (joinOperands (o :: os)) = o :: os :=
      splitOperands_joinOperands (List.cons_ne_nil o os) (hops ▸ plainText_operandTexts i)
    rw [hops] at hparse
    simp [printCommand, parseCommand, hops, splitFirst_append hspace, hform, hsplit, hparse]

end Sys2Proof.Machine
end

section
/-! Steps (R75, R76, R98, R129, R136): what the next step does with the head of the inbox. -/

namespace Sys2Proof.Machine

section
variable {s : State} {rest : List HostOp} (hf : s.faulted = none)
include hf

theorem step_of_inbox_nil (hi : s.inbox = []) : step s = .next s := by
  simp [step, stepBlock, hf, hi]

theorem step_of_command_ready {w : CmdWord} (hl : s.life = .ready) (hi : s.inbox = .command w :: rest) :
    step s = runWord w { s with inbox := rest } := by
  simp [step, stepBlock, takeOp, hf, hl, hi]

theorem step_of_command_unloaded {w : CmdWord} (hl : s.life = .unloaded) (hi : s.inbox = .command w :: rest) :
    step s = .fault .stuckUnloaded := by
  simp [step, stepBlock, takeOp, hf, hl, hi]

theorem step_of_construct_unloaded {c : CartInput} (hl : s.life = .unloaded) (hi : s.inbox = .construct c :: rest) :
    step s = construct c { s with inbox := rest } := by
  simp [step, stepBlock, takeOp, hf, hl, hi]

theorem step_of_construct_ready {c : CartInput} (hl : s.life = .ready) (hi : s.inbox = .construct c :: rest) :
    step s = .fault .constructAgain := by
  simp [step, stepBlock, takeOp, hf, hl, hi]

end

theorem step_of_faulted {s : State} {k : FatalKind} (h : s.faulted = some k) : step s = .fault (.stuckFaulted k) := by
  simp [step, stepBlock, h]

theorem runWord_of_decode {w : CmdWord} {i : Instr} (h : decode w = .ok i) (s : State) : runWord w s = exec i s := by
  simp [runWord, h]

theorem runWord_of_not_wordWf {w : CmdWord} (h : wordWf w = false) (s : State) : runWord w s = .refused .illegalCommand := by
  simp [runWord, decode_of_not_wordWf h]

theorem decode_of_decodeTableWord {n w : Nat} {i : Instr} (h : decodeTableWord n w = some i) :
    decode (tableWord n w) = .ok i := by
  unfold decodeTableWord at h
  cases hd : decode (tableWord n w) with
  | error e => simp [hd, Except.toOption] at h
  | ok j => simpa [hd, Except.toOption] using h

/-- Settles O7: the step takes the word from the inbox and runs what it decodes to. -/
theorem stepRunsDecodedCommand : Obligations.StepRunsDecodedCommand := by
  intro s w rest i hl hf hi hd
  rw [step_of_command_ready hf hl hi, runWord_of_decode hd]

/-- Settles O8: the placed word is the head of the inbox, and taking it leaves the state it was placed in. -/
theorem placedWordIsRunNext : Obligations.PlacedWordIsRunNext := by
  intro s w i hl hf hd
  exact stepRunsDecodedCommand (s.withFetchWord 40 w) (tableWord 40 w) s.inbox i hl hf rfl (decode_of_decodeTableWord hd)

/-- Settles O9: the decoder rejects a word that fits no row, and the step refuses what the decoder rejects. -/
theorem illFormedWordIsRefused : Obligations.IllFormedWordIsRefused := by
  intro s w rest hl hf hi hw
  rw [step_of_command_ready hf hl hi, runWord_of_not_wordWf hw]

/-- Settles O10: `faulted` is tested before the inbox, and `life` before the word. -/
theorem stuckBlockTakesNoCommand : Obligations.StuckBlockTakesNoCommand := by
  constructor
  · intro s k hk
    exact step_of_faulted hk
  · intro s w rest hf hl hi
    exact step_of_command_unloaded hf hl hi

/-- Settles O11: with an empty inbox a step answers the state it was given. -/
theorem idleBlockKeepsItsState : Obligations.IdleBlockKeepsItsState := by
  intro s hf hi
  exact step_of_inbox_nil hf hi

/-- Settles O12: `life` decides whether CONSTRUCT is performed. -/
theorem stepTakesConstructOnce : Obligations.StepTakesConstructOnce := by
  constructor
  · intro s c rest hf hl hi
    exact step_of_construct_unloaded hf hl hi
  · intro s c rest hf hl hi
    exact step_of_construct_ready hf hl hi

theorem State.endsWell_iff (s : State) : s.endsWell = true ↔ s.life = .ready ∧ s.faulted = none ∧ s.inbox = [] := by
  simp [State.endsWell, and_assoc]

/-- Settles O53: a state that ends well is unfaulted with an empty inbox, and such a block idles. -/
theorem runEndsWellWhenRequesterStops : Obligations.RunEndsWellWhenRequesterStops := by
  intro s
  refine ⟨s.endsWell_iff, fun h => ?_⟩
  obtain ⟨-, hf, hi⟩ := s.endsWell_iff.1 h
  exact step_of_inbox_nil hf hi

end Sys2Proof.Machine
end

section
/-! What a command does: the kind of its effect, the byte writes it makes, and what those leave alone. The claims about all
commands split over `Effect` and cite `exec_mem` and `exec_byteAt` for memory. -/

namespace Sys2Proof.Machine

/-- The byte writes a command makes when it raises no fatal condition, in order. -/
def byteWrites : Instr → List (Half × Byte)
  | .write8 a b => [(a, b)]
  | .write16 a v => [(a, lowByte v), (a + 1#16, highByte v)]
  | .reset => resetIoTable
  | _ => []

theorem byteWrites_reset : byteWrites .reset = resetIoTable := rfl

/-- The kinds of effect a command can have on a state: it answers only, makes its byte writes, writes lanes or a 16-bit
register, resets, or enters a fault. WRITE_FLAGS is a lane write (R18). -/
inductive Effect (i : Instr) (s : State) : State → Prop
  | answer (r : Response) (hfits : responseFits i r = true) : Effect i s (s.respond r)
  | store (hfits : responseFits i .done = true) : Effect i s ((replay (byteWrites i) s).respond .done)
  | writeLane (p : Pair) (l : Lane) (b : Byte) (hfits : responseFits i .done = true)
      (hw : writesFlags i = (p == .af && l == .lo)) : Effect i s ((s.writeLane p l b).respond .done)
  | writePair (p : Pair) (v : Half) (hi : i = .writePair p v) : Effect i s ((s.writePair p v).respond .done)
  | writePc (v : Half) (hi : i = .writePc v) : Effect i s (({ s with pc := v } : State).respond .done)
  | writeSp (v : Half) (hi : i = .writeSp v) : Effect i s (({ s with sp := v } : State).respond .done)
  | reset (hi : i = .reset) (hl : s.life = .ready) : Effect i s ((resetBody s).respond .done)
  | latchFault (a : Half) (hg : latchGuard a = true) (hi : i = .read16 a ∨ ∃ v, i = .write16 a v) :
      Effect i s (raiseFatal .ie16Access s)
  | noController (hi : i = .reset) (hl : s.life = .unloaded) : Effect i s (raiseFatal .resetNoController s)

theorem exec_effect {i : Instr} {s t : State} (h : exec i s = .next t) : Effect i s t := by
  rcases exec_cases h with ⟨a, rfl, rfl⟩ | ⟨a, rfl, -, rfl⟩ | ⟨a, rfl, hg, rfl⟩ | ⟨a, b, rfl, rfl⟩ | ⟨a, v, rfl, -, rfl⟩ |
    ⟨a, v, rfl, hg, rfl⟩ | ⟨rfl, hl, rfl⟩ | ⟨rfl, hl, rfl⟩ | ⟨p, rfl, rfl⟩ | ⟨p, v, rfl, rfl⟩ | ⟨p, l, rfl, rfl⟩ |
    ⟨p, l, b, rfl, rfl⟩ | ⟨rfl, rfl⟩ | ⟨f, rfl, rfl⟩ | ⟨rfl, rfl⟩ | ⟨v, rfl, rfl⟩ | ⟨rfl, rfl⟩ | ⟨v, rfl, rfl⟩ | ⟨op, rfl, rfl⟩
  · exact .answer _ rfl
  · exact .answer _ rfl
  · exact .latchFault a hg (.inl rfl)
  · exact .store rfl
  · exact .store rfl
  · exact .latchFault a hg (.inr ⟨v, rfl⟩)
  · exact .reset rfl hl
  · exact .noController rfl hl
  · exact .answer _ rfl
  · exact .writePair p v rfl
  · exact .answer _ rfl
  · exact .writeLane p l b rfl rfl
  · exact .answer _ rfl
  · exact .writeLane .af .lo f rfl rfl
  · exact .answer _ rfl
  · exact .writePc v rfl
  · exact .answer _ rfl
  · exact .writeSp v rfl
  · exact .answer _ rfl

/-! Byte writes in a row change `mem` and nothing else. -/

section
variable (es : List (Half × Byte)) (s : State)
@[simp] theorem replay_life : (replay es s).life = s.life := by rw [replay_frame]
@[simp] theorem replay_faulted : (replay es s).faulted = s.faulted := by rw [replay_frame]
@[simp] theorem replay_variant : (replay es s).variant = s.variant := by rw [replay_frame]
@[simp] theorem replay_lanes : (replay es s).lanes = s.lanes := by rw [replay_frame]
@[simp] theorem replay_pc : (replay es s).pc = s.pc := by rw [replay_frame]
@[simp] theorem replay_sp : (replay es s).sp = s.sp := by rw [replay_frame]
@[simp] theorem replay_diag : (replay es s).diag = s.diag := by rw [replay_frame]
@[simp] theorem replay_responses : (replay es s).responses = s.responses := by rw [replay_frame]
@[simp] theorem replay_inbox : (replay es s).inbox = s.inbox := by rw [replay_frame]
end

theorem byteAt_replay_of_rom {x : Half} (hx : x.toNat < 0x8000) (es : List (Half × Byte)) (s : State) :
    (replay es s).byteAt x = s.byteAt x := by
  induction es generalizing s with
  | nil => rfl
  | cons e es ih => rw [replay, ih, byteAt_write8_of_rom hx]

theorem byteAt_replay_of_not_reach {es : List (Half × Byte)} {x : Half} (h : ∀ e ∈ es, reach e.1 ≠ reach x) (s : State) :
    (replay es s).byteAt x = s.byteAt x := by
  induction es generalizing s with
  | nil => rfl
  | cons e es ih =>
    obtain ⟨he, hes⟩ := List.forall_mem_cons.1 h
    rw [replay, ih hes, byteAt_write8_of_not_reach (fun hw => he hw.2.symm)]

@[simp] theorem State.flags_respond (s : State) (r : Response) : (s.respond r).flags = s.flags := rfl

variable {i : Instr} {s t : State}

theorem exec_romDraw (h : exec i s = .next t) : t.romDraw = s.romDraw := by
  cases exec_effect h <;> simp

/-- A command leaves memory as it is or makes its byte writes. -/
theorem exec_mem (h : exec i s = .next t) : t.mem = s.mem ∨ t.mem = (replay (byteWrites i) s).mem := by
  cases exec_effect h with
  | store => exact .inr rfl
  | reset hi =>
    subst hi
    rw [State.respond_mem, resetBody_mem, byteWrites_reset]
    exact .inr rfl
  | _ => exact .inl (by simp)

/-- Every byte reads as before a command or as after its byte writes. -/
theorem exec_byteAt (h : exec i s = .next t) (x : Half) :
    t.byteAt x = s.byteAt x ∨ t.byteAt x = (replay (byteWrites i) s).byteAt x := by
  have hd := exec_romDraw h
  rcases exec_mem h with hm | hm
  · exact .inl (State.byteAt_congr hm hd x)
  · exact .inr (State.byteAt_congr hm (by simpa using hd) x)

theorem exec_byteAt_of_rom (h : exec i s = .next t) {x : Half} (hx : x.toNat < 0x8000) : t.byteAt x = s.byteAt x := by
  rcases exec_byteAt h x with hb | hb
  · exact hb
  · rw [hb, byteAt_replay_of_rom hx]

theorem exec_wf (h : exec i s = .next t) (hs : s.mem.wf) : t.mem.wf := by
  rcases exec_mem h with hm | hm <;> rw [hm]
  · exact hs
  · exact wf_replay hs _

end Sys2Proof.Machine
end

section
/-! Rules of the whole machine: the invariant, ROM, and what no command changes. -/

namespace Sys2Proof.Machine

section
variable {i : Instr} {s t : State} (h : exec i s = .next t)
include h

theorem exec_flagsClean (hs : s.flagsClean) : t.flagsClean := by
  unfold State.flagsClean at hs ⊢
  cases exec_effect h with
  | writeLane p l b => exact flags_writeLane_low_bits hs p l b
  | writePair p v => exact flags_writePair_low_bits hs p v
  | reset =>
    rw [State.flags_respond]
    exact flags_resetBody_low_bits s
  | store => simpa [State.flags] using hs
  | _ => exact hs

/-- A Ready block that was not faulted is faulted by a command only at the latch. -/
theorem exec_faulted (hl : s.life = .ready) (hf : s.faulted = none) :
    t.faulted = none ∨
      (t.faulted = some .ie16Access ∧ t.life = .ready ∧ t.diag.getLast? = some (.fatal, .fatal .ie16Access) ∧
        ∃ a, latchGuard a = true ∧ (i = .read16 a ∨ ∃ v, i = .write16 a v)) := by
  cases exec_effect h with
  | latchFault a hg hi => exact .inr ⟨rfl, hl, by simp, a, hg, hi⟩
  | noController hi hu => simp [hl] at hu
  | _ => exact .inl (by simp [hf])

end

theorem faultRecorded_of_not_faulted {s : State} (h : s.faulted = none) : s.faultRecorded := by
  intro k hk
  rw [h] at hk
  cases hk

theorem exec_inv {i : Instr} {s t : State} (h : exec i s = .next t) (hl : s.life = .ready) (hf : s.faulted = none)
    (hs : s.Inv) : t.Inv := by
  refine ⟨exec_wf h hs.memory, exec_flagsClean h hs.flags, ?_⟩
  rcases exec_faulted h hl hf with hn | ⟨hk, hready, hlast, -⟩
  · exact faultRecorded_of_not_faulted hn
  · intro k hk'
    rw [hk] at hk'
    cases hk'
    exact ⟨rfl, hready, hlast⟩

theorem resetBody_inv {s : State} (hwf : s.mem.wf) (hf : s.faulted = none) : (resetBody s).Inv :=
  ⟨wf_resetBody hwf, flags_resetBody_low_bits s, faultRecorded_of_not_faulted (by rw [resetBody_faulted, hf])⟩

theorem State.Inv.of_life {s : State} (hs : s.Inv) (hf : s.faulted = none) (l : Life) : ({ s with life := l } : State).Inv :=
  ⟨hs.memory, hs.flags, faultRecorded_of_not_faulted hf⟩

/-- CONSTRUCT gives a block with the invariant, whatever the state it starts from. -/
theorem construct_inv {c : CartInput} {s t : State} (h : construct c s = .next t) : t.Inv := by
  obtain ⟨img, v, -, -, -, rfl⟩ := construct_cases h
  have hwf : (romSizeCheck img (allocated v img s)).mem.wf := by
    rw [romSizeCheck_mem, allocated_mem]
    exact wf_allocatedMemory v img
  have hf : (romSizeCheck img (allocated v img s)).faulted = none := by
    rw [romSizeCheck_faulted]
    rfl
  exact (resetBody_inv hwf hf).of_life (by rw [resetBody_faulted, hf]) .ready

/-- Settles O13: an idle step changes nothing, a command keeps each part of the invariant, and CONSTRUCT establishes it. -/
theorem everyStepKeepsInvariant : Obligations.EveryStepKeepsInvariant := by
  intro s t hs h
  obtain ⟨hf, ⟨-, rfl⟩ | ⟨w, rest, i, -, hl, -, hx⟩ | ⟨c, rest, -, -, hc⟩⟩ := step_cases h
  · exact hs
  · exact exec_inv hx hl hf ⟨hs.memory, hs.flags, hs.fault⟩
  · exact construct_inv hc

/-- Settles O14: the reset state lists no cell, its F is 0xB0, and it is not faulted. -/
theorem resetStateMeetsInvariant : Obligations.ResetStateMeetsInvariant := by
  refine ⟨Memory.wf_nil, ?_, faultRecorded_of_not_faulted rfl⟩
  unfold State.flagsClean
  decide

/-- Settles O15: a Ready block idles or runs a command, and no command's byte writes change a ROM byte. -/
theorem noStepChangesRom : Obligations.NoStepChangesRom := by
  intro s t hl h a ha
  obtain ⟨-, ⟨-, rfl⟩ | ⟨w, rest, i, -, -, -, hx⟩ | ⟨c, rest, -, hu, -⟩⟩ := step_cases h
  · rfl
  · rw [exec_byteAt_of_rom hx ha]
    exact State.byteAt_congr (s := s) (t := { s with inbox := rest }) rfl rfl a
  · simp [hl] at hu

/-- Settles O17: of the effects a command can have, only RESET's and the two register writes touch PC or SP. -/
theorem onlyNamedCommandsMovePcAndSp : Obligations.OnlyNamedCommandsMovePcAndSp := by
  intro i s t h hr
  cases exec_effect h with
  | writePc v hi => exact ⟨fun hn => absurd hi (hn v), fun _ => rfl⟩
  | writeSp v hi => exact ⟨fun _ => rfl, fun hn => absurd hi (hn v)⟩
  | reset hi => exact absurd hi hr
  | _ => simp

/-- Settles O18: a byte that no address of the command's byte writes reaches reads as before; those addresses are WRITE8's,
WRITE16's two and the reset table's. -/
theorem storeByteChangesOnlyByRoutedWrite : Obligations.StoreByteChangesOnlyByRoutedWrite := by
  intro i s t st off h hoff hne
  obtain ⟨x, hx⟩ := exists_reach hoff
  rw [storeByte_of_reach hx, storeByte_of_reach hx] at hne
  have hwrite : ∃ e ∈ byteWrites i, reach e.1 = some (st, off) := by
    by_contra hno
    refine (exec_byteAt h x).elim hne fun hb => hne ?_
    rw [hb, byteAt_replay_of_not_reach]
    intro e he heq
    exact hno ⟨e, he, heq.trans hx⟩
  obtain ⟨e, he, hreach⟩ := hwrite
  cases i with
  | write8 a b =>
    obtain rfl := List.mem_singleton.1 he
    exact .inl ⟨a, b, rfl, hreach⟩
  | write16 a v =>
    refine .inr (.inl ⟨a, v, rfl, ?_⟩)
    rcases List.mem_pair.1 he with rfl | rfl
    · exact .inl hreach
    · exact .inr hreach
  | reset => exact .inr (.inr ⟨rfl, e, he, hreach⟩)
  | _ => exact absurd he List.not_mem_nil

/-- Settles O19: only RESET and fault entry emit events. -/
theorem commandsOnlyAppendToDiag : Obligations.CommandsOnlyAppendToDiag := by
  intro i s t h
  cases exec_effect h with
  | reset hi => exact .inr (.inl ⟨hi, by simp⟩)
  | latchFault => exact .inr (.inr ⟨_, rfl, rfl⟩)
  | noController => exact .inr (.inr ⟨_, rfl, rfl⟩)
  | _ => exact .inl (by simp)

/-- Settles O20: every effect ends with one `respond`, of the command's kind or of the fault it enters. -/
theorem eachCommandGivesOneResponse : Obligations.EachCommandGivesOneResponse := by
  intro i s t h
  cases exec_effect h with
  | answer r hfits => exact ⟨r, rfl, .inl hfits⟩
  | store hfits => exact ⟨.done, by simp, .inl hfits⟩
  | writeLane p l b hfits => exact ⟨.done, by simp, .inl hfits⟩
  | writePair p v hi => subst hi; exact ⟨.done, by simp, .inl rfl⟩
  | writePc v hi => subst hi; exact ⟨.done, rfl, .inl rfl⟩
  | writeSp v hi => subst hi; exact ⟨.done, rfl, .inl rfl⟩
  | reset hi => subst hi; exact ⟨.done, by simp, .inl rfl⟩
  | latchFault => exact ⟨_, rfl, .inr ⟨_, rfl, rfl⟩⟩
  | noController => exact ⟨_, rfl, .inr ⟨_, rfl, rfl⟩⟩

/-- Settles O21: the one fatal effect on a Ready block is the latch guard's, which holds at 0xFFFE and 0xFFFF. -/
theorem onlyLatchAccessIsFatal : Obligations.OnlyLatchAccessIsFatal := by
  intro i s t h hl hf
  rcases exec_faulted h hl hf with hn | ⟨hk, -, -, a, hg, hi⟩
  · exact .inl hn
  · exact .inr ⟨hk, a, (latchGuard_eq a).1 hg, hi⟩

/-- Settles O22: no effect touches these four fields. -/
theorem commandsKeepLifeVariantAndDraw : Obligations.CommandsKeepLifeVariantAndDraw := by
  intro i s t h
  cases exec_effect h <;> simp

end Sys2Proof.Machine
end

section
/-! What `exec` answers, command by command (beside READ_PAIR, READ_FLAGS, WRITE8 and the unguarded 16-bit accesses above). -/

namespace Sys2Proof.Machine

section
variable (s : State)

theorem exec_read8 (a : Half) : exec (.read8 a) s = .next (s.respond (.value (zextByte (s.byteAt a)))) := by
  simp only [exec, execRead8, read8_state, read8_byte]

theorem exec_read16_of_guarded {a : Half} (h : latchGuard a = true) :
    exec (.read16 a) s = .next (raiseFatal .ie16Access s) := by
  simp [exec, execRead16, read16_eq, h]

theorem exec_write16_of_guarded {a : Half} (h : latchGuard a = true) (v : Half) :
    exec (.write16 a v) s = .next (raiseFatal .ie16Access s) := by
  simp [exec, execWrite16, write16, h]

theorem exec_writePair (p : Pair) (v : Half) : exec (.writePair p v) s = .next ((s.writePair p v).respond .done) := rfl

theorem exec_readByte (p : Pair) (l : Lane) :
    exec (.readByte p l) s = .next (s.respond (.value (zextByte (s.lane p l)))) := rfl

theorem exec_writeByte (p : Pair) (l : Lane) (b : Byte) :
    exec (.writeByte p l b) s = .next ((s.writeLane p l b).respond .done) := rfl

theorem exec_writeFlags (f : Byte) : exec (.writeFlags f) s = .next ((s.writeLane .af .lo f).respond .done) := rfl

theorem exec_readPc : exec .readPc s = .next (s.respond (.value s.pc)) := rfl

theorem exec_writePc (v : Half) : exec (.writePc v) s = .next (({ s with pc := v } : State).respond .done) := rfl

theorem exec_readSp : exec .readSp s = .next (s.respond (.value s.sp)) := rfl

theorem exec_writeSp (v : Half) : exec (.writeSp v) s = .next (({ s with sp := v } : State).respond .done) := rfl

theorem exec_lookup (op : Byte) : exec (.lookup op) s = .next (s.respond (.record (opcodeMeta op))) := rfl

end

theorem exec_reset_of_ready {s : State} (h : s.life = .ready) : exec .reset s = .next ((resetBody s).respond .done) := by
  simp only [exec, execReset, h]

theorem exec_reset_of_unloaded {s : State} (h : s.life = .unloaded) :
    exec .reset s = .next (raiseFatal .resetNoController s) := by
  simp only [exec, execReset, h]

end Sys2Proof.Machine
end

section
/-! F and the commands (R21): each operation commutes with a change of F, or forgets F. -/

namespace Sys2Proof.Machine

section
variable (s : State) (f : Byte)

theorem State.byteAt_withF (a : Half) : (s.withF f).byteAt a = s.byteAt a :=
  State.byteAt_congr (State.setLanePair_mem ..) (State.setLanePair_romDraw ..) a

theorem State.lane_withF (p : Pair) (l : Lane) :
    (s.withF f).lane p l = if p = .af ∧ l = .lo then f else s.lane p l := by
  cases p <;> cases l <;> rfl

theorem State.pair_withF {p : Pair} (hp : p ≠ .af) : (s.withF f).pair p = s.pair p := by
  simp [State.pair, State.lane_withF, hp]

theorem State.respond_withF (r : Response) : (s.withF f).respond r = (s.respond r).withF f := rfl

theorem raiseFatal_withF (k : FatalKind) : raiseFatal k (s.withF f) = (raiseFatal k s).withF f := rfl

theorem write8_withF (a : Half) (b : Byte) : write8 a b (s.withF f) = (write8 a b s).withF f := by
  rw [write8_eq, write8_eq]
  cases home a with
  | none => rfl
  | some k =>
    dsimp only
    split <;> rfl

theorem State.writeLane_withF {p : Pair} {l : Lane} (h : ¬ (p = .af ∧ l = .lo)) (b : Byte) :
    (s.withF f).writeLane p l b = (s.writeLane p l b).withF f := by
  cases p with
  | af =>
    cases l with
    | hi => rfl
    | lo => exact absurd ⟨rfl, rfl⟩ h
  | _ => cases l <;> rfl

theorem State.writePair_withF {p : Pair} (hp : p ≠ .af) (v : Half) :
    (s.withF f).writePair p v = (s.writePair p v).withF f := by
  simp [State.writePair, State.writeLane_withF, hp]

theorem State.writeLane_af_lo_withF (b : Byte) : (s.withF f).writeLane .af .lo b = s.writeLane .af .lo b := rfl

theorem State.writePair_af_withF (v : Half) : (s.withF f).writePair .af v = s.writePair .af v := rfl

theorem resetBody_withF : resetBody (s.withF f) = resetBody s := by
  have hm : (replay resetIoTable (s.withF f)).mem = (replay resetIoTable s).mem :=
    replay_mem_congr resetIoTable (State.setLanePair_mem ..)
  rw [resetBody_frame, hm, resetBody_frame s]
  rfl

end

section
variable {i : Instr} {s t : State} (h : exec i s = .next t)
include h

theorem exec_keeps_flags (hw : writesFlags i = false) : t.flags = s.flags := by
  cases exec_effect h with
  | writeLane p l b _ hi =>
    have hne : ¬ (p = .af ∧ l = .lo) := by simpa [hi] using hw
    simp [State.flags_eq, State.lane_writeLane, eq_comm, hne]
  | writePair p v hi =>
    subst hi
    have hp : p ≠ .af := by simpa [writesFlags] using hw
    simp [State.flags_eq, State.lane_writePair, hp.symm]
  | reset hi =>
    subst hi
    cases hw
  | store => simp [State.flags]
  | _ => rfl

/-- A command that neither writes nor reads F does the same whatever F holds. -/
theorem exec_withF_of_unused (hw : writesFlags i = false) (hr : readsFlags i = false) (f : Byte) :
    exec i (s.withF f) = .next (t.withF f) := by
  cases i with
  | read16 a =>
    cases hg : latchGuard a with
    | false =>
      rw [exec_read16_of_not_guarded hg] at h ⊢
      cases h
      simp only [State.byteAt_withF, State.respond_withF]
    | true =>
      rw [exec_read16_of_guarded _ hg] at h ⊢
      cases h
      rw [raiseFatal_withF]
  | write16 a v =>
    cases hg : latchGuard a with
    | false =>
      rw [exec_write16_of_not_guarded hg] at h ⊢
      cases h
      simp only [write8_withF, State.respond_withF]
    | true =>
      rw [exec_write16_of_guarded _ hg] at h ⊢
      cases h
      rw [raiseFatal_withF]
  | readPair p =>
    have hp : p ≠ .af := by simpa [readsFlags] using hr
    rw [exec_readPair] at h ⊢
    cases h
    rw [State.pair_withF s f hp, State.respond_withF]
  | writePair p v =>
    have hp : p ≠ .af := by simpa [writesFlags] using hw
    rw [exec_writePair] at h ⊢
    cases h
    rw [State.writePair_withF s f hp, State.respond_withF]
  | readByte p l =>
    have hne : ¬ (p = .af ∧ l = .lo) := by simpa [readsFlags] using hr
    rw [exec_readByte] at h ⊢
    cases h
    rw [State.lane_withF, if_neg hne, State.respond_withF]
  | writeByte p l b =>
    have hne : ¬ (p = .af ∧ l = .lo) := by simpa [writesFlags] using hw
    rw [exec_writeByte] at h ⊢
    cases h
    rw [State.writeLane_withF s f hne, State.respond_withF]
  | read8 a =>
    rw [exec_read8] at h ⊢
    cases h
    rw [State.byteAt_withF, State.respond_withF]
  | write8 a b =>
    rw [exec_write8] at h ⊢
    cases h
    rw [write8_withF, State.respond_withF]
  | reset => cases hw
  | readFlags => cases hr
  | writeFlags f => cases hw
  | readPc => cases h; rfl
  | writePc v => cases h; rfl
  | readSp => cases h; rfl
  | writeSp v => cases h; rfl
  | lookup op => cases h; rfl

/-- A command that writes F, RESET on a Ready block among them, gives one state from every F. -/
theorem exec_withF_of_writesFlags (hw : writesFlags i = true) (hl : i ≠ .reset ∨ s.life = .ready) (f : Byte) :
    exec i (s.withF f) = .next t := by
  cases i with
  | writePair p v =>
    have hp : p = .af := by simpa [writesFlags] using hw
    subst hp
    rwa [exec_writePair, State.writePair_af_withF]
  | writeByte p l b =>
    have hpl : p = .af ∧ l = .lo := by simpa [writesFlags] using hw
    obtain ⟨rfl, rfl⟩ := hpl
    rwa [exec_writeByte, State.writeLane_af_lo_withF]
  | writeFlags b => rwa [exec_writeFlags, State.writeLane_af_lo_withF]
  | reset =>
    have hready : s.life = .ready := hl.resolve_left (fun hn => hn rfl)
    rw [exec_reset_of_ready hready] at h
    rw [exec_reset_of_ready (State.setLanePair_life .. |>.trans hready), resetBody_withF, h]
  | _ => cases hw

end

/-- Settles O16: each operation of a command that does not name F commutes with a change of F, a write of F forgets what F held,
and RESET with no controller only enters its fault. -/
theorem onlyNamedCommandsUseFlags : Obligations.OnlyNamedCommandsUseFlags := by
  intro i s t h
  refine ⟨exec_keeps_flags h, exec_withF_of_unused h, exec_withF_of_writesFlags h, ?_⟩
  rintro rfl hl
  rw [exec_reset_of_unloaded hl] at h
  cases h
  refine ⟨rfl, fun f => ?_⟩
  rw [exec_reset_of_unloaded (State.setLanePair_life .. |>.trans hl), raiseFatal_withF]

end Sys2Proof.Machine
end

section
/-! The address space: regions, byte access and 16-bit access (20_memory.md, 40_memory_access.md). -/

namespace Sys2Proof.Machine

/-! ## Regions -/

theorem regionTable_region_inj : ∀ row ∈ regionTable, ∀ row' ∈ regionTable, row'.1 = row.1 → row' = row := by decide

/-- Settles O23: two rows that hold one address both give what it decodes to, and the rows differ in their region. -/
theorem everyAddressHasOneRegion : Obligations.EveryAddressHasOneRegion := by
  refine ⟨rfl, fun a => ?_⟩
  obtain ⟨row, hrow, ha⟩ := exists_row a
  have hd := decodeAddr_of_mem hrow ha
  refine ⟨row, hrow, ha.1, ha.2, hd, fun row' hrow' h1 h2 => ?_⟩
  have hd' := decodeAddr_of_mem hrow' ⟨h1, h2⟩
  have hregion : row'.1 = row.1 := (Prod.mk.inj (hd'.symm.trans hd)).1
  exact regionTable_region_inj row hrow row' hrow' hregion

theorem reach_of_row {row : Region × Nat × Nat} (hrow : row ∈ regionTable) {a : Half}
    (ha : row.2.1 ≤ a.toNat ∧ a.toNat < row.2.2) : reach a = resolve (row.1, a.toNat - row.2.1) := by
  rw [reach, decodeAddr_of_mem hrow ha]

/-- An address in a row with a store of its own reads that store at the address's offset in the row. -/
theorem byteAt_of_row (row : Region × Nat × Nat) {a : Half} (ha : row.2.1 ≤ a.toNat ∧ a.toNat < row.2.2) {st : Store}
    (hst : resolve (row.1, a.toNat - row.2.1) = some (st, a.toNat - row.2.1)) (s : State)
    (hrow : row ∈ regionTable := by simp [regionTable]) : s.byteAt a = s.storeByte st (a.toNat - row.2.1) :=
  (storeByte_of_reach ((reach_of_row hrow ha).trans hst) s).symm

/-! ## The echo and the unusable range -/

section
variable {a : Half}

theorem toNat_sub_echo (h : 0xE000 ≤ a.toNat) : (a - 0x2000#16).toNat = a.toNat - 0x2000 := by
  bv_omega

theorem home_sub_echo (h1 : 0xE000 ≤ a.toNat) (h2 : a.toNat < 0xFE00) : home (a - 0x2000#16) = home a := by
  rw [home_eq, home_eq, toNat_sub_echo h1, if_neg (by omega), if_neg (by omega), if_pos ⟨h1, h2⟩]

theorem byteAt_sub_echo (h1 : 0xE000 ≤ a.toNat) (h2 : a.toNat < 0xFE00) (s : State) :
    s.byteAt (a - 0x2000#16) = s.byteAt a := by
  rw [State.byteAt_eq, State.byteAt_eq, home_sub_echo h1 h2]

theorem write8_sub_echo (h1 : 0xE000 ≤ a.toNat) (h2 : a.toNat < 0xFE00) (b : Byte) (s : State) :
    write8 (a - 0x2000#16) b s = write8 a b s := by
  have hrom : ¬ (a - 0x2000#16).toNat < 0x8000 := by rw [toNat_sub_echo h1]; omega
  have hrom' : ¬ a.toNat < 0x8000 := by omega
  simp only [write8_eq, home_sub_echo h1 h2, hrom, hrom', if_false]

theorem home_of_unusable (h1 : 0xFEA0 ≤ a.toNat) (h2 : a.toNat < 0xFF00) : home a = none := by
  rw [home_eq, if_neg (by omega), if_pos ⟨h1, h2⟩]

theorem byteAt_of_unusable (h1 : 0xFEA0 ≤ a.toNat) (h2 : a.toNat < 0xFF00) (s : State) : s.byteAt a = 0x00#8 := by
  rw [State.byteAt_eq, home_of_unusable h1 h2]

theorem write8_of_unusable (h1 : 0xFEA0 ≤ a.toNat) (h2 : a.toNat < 0xFF00) (b : Byte) (s : State) : write8 a b s = s := by
  rw [write8_eq, home_of_unusable h1 h2]

end

/-- Settles O27: an echo address and the address 0x2000 below it have one home, and 0xDE00-0xDFFF is below the echo by less
than that. -/
theorem echoMirrorsWorkRam : Obligations.EchoMirrorsWorkRam := by
  constructor
  · intro s a b h1 h2
    exact ⟨(byteAt_sub_echo h1 h2 s).symm, (write8_sub_echo h1 h2 b s).symm⟩
  · intro a x h1 h2 hreach
    have hhome := (reach_eq_iff a x).1 hreach
    rw [home_eq, home_eq a, if_neg (show ¬ (0xE000 ≤ a.toNat ∧ a.toNat < 0xFE00) by omega),
      if_neg (show ¬ (0xFEA0 ≤ a.toNat ∧ a.toNat < 0xFF00) by omega)] at hhome
    apply BitVec.eq_of_toNat_eq
    split_ifs at hhome <;> simp only [Option.some.injEq] at hhome <;> omega

/-- Settles O28: an unusable address has no home, so a read gives 0 and a write changes nothing. -/
theorem unusableRangeIsInert : Obligations.UnusableRangeIsInert := by
  intro s a b h1 h2
  constructor
  · rw [exec_read8, byteAt_of_unusable h1 h2]
    rfl
  · rw [exec_write8, write8_of_unusable h1 h2]
    rfl

/-! ## Byte access -/

/-- Settles O24: READ8 answers with the byte; each region's row names the store the byte is in. -/
theorem read8RespondsTheRegionsByte : Obligations.Read8RespondsTheRegionsByte := by
  intro s a
  refine ⟨exec_read8 s a, ?rom0, ?romx, ?vram, ?eram, ?wram0, ?wramx, ?echo, ?oam, ?unusable, ?io, ?hram, ?ie⟩
  case rom0 => exact fun h => byteAt_of_row (.rom0, 0x0000, 0x4000) ⟨Nat.zero_le _, h⟩ rfl s
  case romx => exact fun h1 h2 => byteAt_of_row (.romx, 0x4000, 0x8000) ⟨h1, h2⟩ rfl s
  case vram => exact fun h1 h2 => byteAt_of_row (.vram, 0x8000, 0xA000) ⟨h1, h2⟩ rfl s
  case eram => exact fun h1 h2 => byteAt_of_row (.eram, 0xA000, 0xC000) ⟨h1, h2⟩ rfl s
  case wram0 => exact fun h1 h2 => byteAt_of_row (.wram0, 0xC000, 0xD000) ⟨h1, h2⟩ rfl s
  case wramx => exact fun h1 h2 => byteAt_of_row (.wramx, 0xD000, 0xE000) ⟨h1, h2⟩ rfl s
  case echo => exact fun h1 h2 => (byteAt_sub_echo h1 h2 s).symm
  case oam => exact fun h1 h2 => byteAt_of_row (.oam, 0xFE00, 0xFEA0) ⟨h1, h2⟩ rfl s
  case unusable => exact fun h1 h2 => byteAt_of_unusable h1 h2 s
  case io =>
    intro h1 h2
    rw [ioReadOrMask, BitVec.or_zero]
    exact byteAt_of_row (.io, 0xFF00, 0xFF80) ⟨h1, h2⟩ rfl s
  case hram => exact fun h1 h2 => byteAt_of_row (.hram, 0xFF80, 0xFFFF) ⟨h1, h2⟩ rfl s
  case ie =>
    intro h
    have hb := byteAt_of_row (.ie, 0xFFFF, 0x10000) (a := a) ⟨h.ge, a.isLt⟩ rfl s
    simpa [h] using hb

/-- A `write8`, then an answer, changes `mem` and the responses and nothing else. -/
theorem respond_write8_frame (a : Half) (b : Byte) (s : State) (r : Response) :
    (write8 a b s).respond r = { s with mem := (write8 a b s).mem, responses := s.responses ++ [r] } := by
  rw [write8_frame]
  rfl

/-- Settles O25: WRITE8 is one byte write, and an address reads the byte written exactly if it reaches the byte stored. -/
theorem write8StoresOneByte : Obligations.Write8StoresOneByte := by
  intro s a b
  refine ⟨_, exec_write8 a b s, respond_write8_frame a b s .done, fun hw x hx => ?_, fun x hx => ?_⟩
  · rw [State.byteAt_respond, byteAt_write8_of_reach hw hx]
  · rw [State.byteAt_respond, byteAt_write8_of_not_reach hx]

/-! ## Degraded access (R51-R53) -/

section
variable {impl : Region → Bool} {a : Half}

theorem readByteWith_of_degraded (h : degraded impl (decodeAddr a).1 = true) (s : State) :
    readByteWith impl a s = (0x00#8, s.emit .warning .unimplementedRegion) := by
  simp only [readByteWith, h, if_true]

theorem writeByteWith_of_degraded (h : degraded impl (decodeAddr a).1 = true) (b : Byte) (s : State) :
    writeByteWith impl a b s = s.emit .warning .unimplementedRegion := by
  simp only [writeByteWith, h, if_true]

variable {so : Store × Nat} (hreach : reach a = some so) (h : degraded impl (decodeAddr a).1 = false)
include hreach h

theorem readByteWith_of_reach (s : State) :
    readByteWith impl a s =
      if degraded impl so.1.region then (0x00#8, s.emit .warning .unimplementedRegion) else (readStore so.1 so.2 s, s) := by
  rw [reach] at hreach
  simp [readByteWith, h, hreach]

theorem writeByteWith_of_reach (b : Byte) (s : State) :
    writeByteWith impl a b s =
      if degraded impl so.1.region then s.emit .warning .unimplementedRegion
      else if so.1 = .rom0 ∨ so.1 = .romx then s else s.setStoreByte so.1 so.2 b := by
  rw [reach] at hreach
  simp [writeByteWith, h, hreach, writeStore_eq]

end

theorem degraded_of_not_implemented {impl : Region → Bool} {r : Region} (h : impl r = false) (hr : r ≠ .unusable) :
    degraded impl r = true := by
  simp [degraded, h, hr]

theorem not_degraded_of_implemented {impl : Region → Bool} {r : Region} (h : impl r = true) : degraded impl r = false := by
  simp [degraded, h]

theorem Store.region_ne_unusable (st : Store) : st.region ≠ .unusable := by
  cases st <;> decide

/-- An echo address and the address 0x2000 below it reach one stored byte, which lies in the second one's own region. -/
theorem echo_target {a : Half} (h : (decodeAddr a).1 = .echo) :
    ∃ so, reach a = some so ∧ reach (a - 0x2000#16) = some so ∧ (decodeAddr (a - 0x2000#16)).1 = so.1.region := by
  obtain ⟨h1, h2⟩ := echo_bounds h
  have hsub := toNat_sub_echo h1
  have ha : reach a = resolve (.echo, a.toNat - 0xE000) :=
    reach_of_row (row := (.echo, 0xE000, 0xFE00)) (by simp [regionTable]) ⟨h1, h2⟩
  by_cases h4 : a.toNat < 0xF000
  · have hd : decodeAddr (a - 0x2000#16) = (.wram0, a.toNat - 0xE000) := by
      rw [decodeAddr_of_mem (row := (.wram0, 0xC000, 0xD000)) (by simp [regionTable]) (by dsimp only; omega), hsub]
      exact congrArg (Prod.mk _) (by dsimp only; omega)
    refine ⟨(.wram0, a.toNat - 0xE000), ?_, by rw [reach, hd]; rfl, by rw [hd]; rfl⟩
    rw [ha, resolve, if_pos (by omega)]
  · have hd : decodeAddr (a - 0x2000#16) = (.wramx, a.toNat - 0xE000 - 0x1000) := by
      rw [decodeAddr_of_mem (row := (.wramx, 0xD000, 0xE000)) (by simp [regionTable]) (by dsimp only; omega), hsub]
      exact congrArg (Prod.mk _) (by dsimp only; omega)
    refine ⟨(.wramx, a.toNat - 0xE000 - 0x1000), ?_, by rw [reach, hd]; rfl, by rw [hd]; rfl⟩
    rw [ha, resolve, if_neg (by omega)]

/-- Settles O29: an address of a region left out degrades before any store is reached; an implemented echo passes the first
test and then does what the address 0x2000 below does, which tests the region of the byte that both reach. -/
theorem unimplementedRegionDegrades : Obligations.UnimplementedRegionDegrades := by
  intro impl s a b
  refine ⟨fun hi hu => ?_, fun he hi => ?_, fun he hi so hso hn => ?_⟩
  · have hd := degraded_of_not_implemented hi hu
    exact ⟨readByteWith_of_degraded hd s, writeByteWith_of_degraded hd b s⟩
  · obtain ⟨so, ha, hsub, hregion⟩ := echo_target he
    have hd : degraded impl (decodeAddr a).1 = false := he ▸ not_degraded_of_implemented hi
    rw [readByteWith_of_reach ha hd, writeByteWith_of_reach ha hd]
    cases hr : degraded impl so.1.region with
    | true =>
      rw [← hregion] at hr
      exact ⟨(readByteWith_of_degraded hr s).symm, (writeByteWith_of_degraded hr b s).symm⟩
    | false =>
      rw [← hregion] at hr
      rw [readByteWith_of_reach hsub hr, writeByteWith_of_reach hsub hr, ← hregion, hr]
      exact ⟨rfl, rfl⟩
  · have hd : degraded impl (decodeAddr a).1 = false := he ▸ not_degraded_of_implemented hi
    rw [readByteWith_of_reach hso hd, writeByteWith_of_reach hso hd,
      degraded_of_not_implemented hn so.1.region_ne_unusable]
    exact ⟨rfl, rfl⟩

/-! ## 16-bit access -/

theorem latchGuard_of_ne {a : Half} (h1 : a ≠ 0xFFFE#16) (h2 : a ≠ 0xFFFF#16) : latchGuard a = false := by
  simp [latchGuard, h1, h2]

/-- Settles O30: outside the guard READ16 is two byte reads, and `a` is not the last address. -/
theorem read16ComposesTwoBytes : Obligations.Read16ComposesTwoBytes := by
  intro s a h1 h2
  have hg := latchGuard_of_ne h1 h2
  exact ⟨exec_read16_of_not_guarded hg s, toNat_succ_of_not_guarded hg⟩

section
variable {a : Half} (s : State)

/-- The two byte writes of WRITE16, then an answer, change `mem` and the responses and nothing else. -/
theorem respond_write16_frame (x y : Byte) (r : Response) :
    (write8 (a + 1#16) y (write8 a x s)).respond r =
      { s with mem := (write8 (a + 1#16) y (write8 a x s)).mem, responses := s.responses ++ [r] } := by
  rw [respond_write8_frame, write8_frame a]

theorem byteAt_write16_low (hg : a ≠ 0xFFFF#16) (hw : Writable a) {x : Half} (hx : reach x = reach a) (lo hi : Byte) :
    (write8 (a + 1#16) hi (write8 a lo s)).byteAt x = lo := by
  rw [byteAt_write8_of_not_reach, byteAt_write8_of_reach hw hx]
  exact fun h => reach_add_one_ne hw hg (hx.symm.trans h.2)

end

/-- Settles O31: WRITE16 is two byte writes that store two different bytes, so the second leaves the first one's byte alone. -/
theorem write16StoresTwoBytes : Obligations.Write16StoresTwoBytes := by
  intro s a v h1 h2
  refine ⟨_, exec_write16_of_not_guarded (latchGuard_of_ne h1 h2) v s, respond_write16_frame s _ _ .done,
    fun hw x hx => ?_, fun hw x hx => ?_, fun x hx hx' => ?_⟩ <;> rw [State.byteAt_respond]
  · exact byteAt_write16_low s h2 hw hx _ _
  · exact byteAt_write8_of_reach hw hx _ _
  · rw [byteAt_write8_of_not_reach hx', byteAt_write8_of_not_reach hx]

/-- Settles O33: the guard holds at both addresses and is tested first, so all that happens is fault entry. -/
theorem latchAccessEntersFault : Obligations.LatchAccessEntersFault := by
  intro s a v ha
  have hg := (latchGuard_eq a).2 ha
  exact ⟨exec_read16_of_guarded s hg, exec_write16_of_guarded s hg v⟩

theorem resolve_ne_none {ro : Region × Nat} (h : ro.1 ≠ .unusable) : resolve ro ≠ none := by
  obtain ⟨r, off⟩ := ro
  cases r with
  | unusable => exact absurd rfl h
  | echo =>
    rw [resolve]
    split <;> simp
  | _ => simp [resolve]

/-- The RAM-class regions lie above ROM, and all they hold is stored. -/
theorem writable_of_region {a : Half} (h : (decodeAddr a).1 ∈ [Region.vram, .eram, .wram0, .wramx, .echo, .oam, .hram, .io]) :
    Writable a := by
  constructor
  · refine resolve_ne_none fun hu => ?_
    rw [hu] at h
    simp at h
  · obtain ⟨row, hrow, h1, h2⟩ := exists_row a
    rw [decodeAddr_of_mem hrow ⟨h1, h2⟩] at h
    simp only [regionTable, List.mem_cons, List.not_mem_nil, or_false] at hrow
    rcases hrow with rfl | rfl | rfl | rfl | rfl | rfl | rfl | rfl | rfl | rfl | rfl | rfl <;> simp at h h1 <;> omega

/-- Settles O34: both addresses are writable and, neither being guarded, reach two different bytes, which READ16 joins as
WRITE16 split them. -/
theorem write16ThenRead16RoundTrip : Obligations.Write16ThenRead16RoundTrip := by
  intro s a v hregion hsame
  have hw := writable_of_region hregion
  have hw' : Writable (a + 1#16) := writable_of_region (hsame.symm ▸ hregion)
  have h1 : a ≠ 0xFFFE#16 := by
    rintro rfl
    exact absurd hsame (by decide)
  have h2 : a ≠ 0xFFFF#16 := by
    rintro rfl
    exact absurd hregion (by decide)
  have hg := latchGuard_of_ne h1 h2
  refine ⟨_, exec_write16_of_not_guarded hg v s, ?_⟩
  rw [exec_read16_of_not_guarded hg, State.byteAt_respond, State.byteAt_respond, byteAt_write8_of_reach hw' rfl,
    byteAt_write16_low s h2 hw rfl, joinBytes_high_low]
  rfl

end Sys2Proof.Machine
end

section
/-! The register file (41_register_file.md): lanes, pairs, F, PC and SP. -/

namespace Sys2Proof.Machine

theorem State.lane_writePair_hi (s : State) (p : Pair) (v : Half) : (s.writePair p v).lane p .hi = highByte v := by
  simp [State.lane_writePair]

theorem storedLane_eq (p : Pair) (l : Lane) (b : Byte) :
    storedLane p l b = if p = .af ∧ l = .lo then b &&& 0xF8#8 else b := by
  cases p <;> cases l <;> rfl

theorem State.lane_writePair_lo (s : State) (p : Pair) (v : Half) :
    (s.writePair p v).lane p .lo = if p = .af then lowByte v &&& 0xF8#8 else lowByte v := by
  simp [State.lane_writePair, storedLane_eq]

theorem State.lane_writePair_of_ne (s : State) {p q : Pair} (h : q ≠ p) (l : Lane) (v : Half) :
    (s.writePair p v).lane q l = s.lane q l := by
  simp [State.lane_writePair, h]

theorem State.pair_writePair (s : State) (p : Pair) (v : Half) :
    (s.writePair p v).pair p = if p = .af then v &&& 0xFFF8#16 else v := by
  rw [State.pair, State.lane_writePair_hi, State.lane_writePair_lo]
  split
  · exact joinBytes_maskFlags v
  · exact joinBytes_high_low v

theorem State.lane_writeLane_same (s : State) (p : Pair) (l : Lane) (b : Byte) :
    (s.writeLane p l b).lane p l = if p = .af ∧ l = .lo then b &&& 0xF8#8 else b := by
  simp [State.lane_writeLane, storedLane_eq]

theorem State.lane_writeLane_of_ne (s : State) {p q : Pair} {l l' : Lane} (h : ¬ (q = p ∧ l' = l)) (b : Byte) :
    (s.writeLane p l b).lane q l' = s.lane q l' := by
  rw [State.lane_writeLane, if_neg h]

theorem State.pair_writeLane_of_ne (s : State) {p q : Pair} (h : q ≠ p) (l : Lane) (b : Byte) :
    (s.writeLane p l b).pair q = s.pair q := by
  simp [State.pair, State.lane_writeLane, h]

/-- A write of lanes, then an answer, changes `lanes` and the responses and nothing else. -/
theorem State.respond_writePair_frame (s : State) (p : Pair) (v : Half) (r : Response) :
    (s.writePair p v).respond r = { s with lanes := (s.writePair p v).lanes, responses := s.responses ++ [r] } := by
  rw [State.writePair_frame]
  rfl

theorem State.respond_writeLane_frame (s : State) (p : Pair) (l : Lane) (b : Byte) (r : Response) :
    (s.writeLane p l b).respond r = { s with lanes := (s.writeLane p l b).lanes, responses := s.responses ++ [r] } := by
  rw [State.writeLane_frame]
  rfl

/-- Settles O37: a pair write stores the bytes of the value as the pair's lanes, the low one masked in AF. -/
theorem writePairStoresBothLanes : Obligations.WritePairStoresBothLanes := by
  intro s p v
  refine ⟨_, exec_writePair s p v, s.respond_writePair_frame p v .done, ?_, fun q l hq => ?_⟩
  · rw [State.pair_respond, State.pair_writePair]
  · rw [State.lane_respond, State.lane_writePair_of_ne s hq]

/-- Settles O38: READ_BYTE only answers, and a clean low lane of AF makes the low bits of the pair clean. -/
theorem readByteRespondsOneLane : Obligations.ReadByteRespondsOneLane := by
  intro s p l
  refine ⟨exec_readByte s p l, fun v => ⟨s.lane_writePair_hi p v, s.lane_writePair_lo p v⟩, fun hc => ?_⟩
  exact ⟨hc, joinBytes_low_bits (s.lane .af .hi) hc⟩

/-- Settles O39: a lane write stores its one lane, masked if it is F. -/
theorem writeByteStoresOneLane : Obligations.WriteByteStoresOneLane := by
  intro s p l b
  refine ⟨_, exec_writeByte s p l b, s.respond_writeLane_frame p l b .done, ?_, fun q l' hne => ?_⟩
  · rw [State.lane_respond, State.lane_writeLane_same]
  · rw [State.lane_respond, State.lane_writeLane_of_ne s hne]

/-- Settles O40: WRITE_BYTE is one lane write, and so is WRITE_FLAGS. -/
theorem laneWriteLeavesTheRestAlone : Obligations.LaneWriteLeavesTheRestAlone := by
  intro s p l b
  refine ⟨⟨_, exec_writeByte s p l b, fun l' hl => ?_, fun q l' hq => ?_, fun q hq => ?_, ?_, ?_, fun a => ?_⟩, ?_⟩
  · rw [State.lane_respond, State.lane_writeLane_of_ne s fun h => hl h.2]
  · rw [State.lane_respond, State.lane_writeLane_of_ne s fun h => hq h.1]
  · rw [State.pair_respond, State.pair_writeLane_of_ne s hq]
  · rw [State.respond_pc, State.writeLane_pc]
  · rw [State.respond_sp, State.writeLane_sp]
  · exact State.byteAt_congr (by simp) (by simp) a
  · rw [exec_writeFlags, exec_writeByte]

/-- Settles O41: WRITE_FLAGS is the lane write that leaves `f &&& 0xF8` in F, whose bits are read off that mask. -/
theorem flagCommandsReadAndWriteF : Obligations.FlagCommandsReadAndWriteF := by
  intro s f
  have hflags : ((s.writeLane .af .lo f).respond .done).flags = f &&& 0xF8#8 := rfl
  refine ⟨exec_readFlags s, _, exec_writeFlags s f, s.respond_writeLane_frame .af .lo f .done, hflags, ?_⟩
  rw [hflags]
  refine ⟨?_, ?_, ?_, ?_, ?_, maskFlags_low_bits f, ?_, fun q l hq => ?_⟩
  · simp [flagZ]
  · simp [flagN]
  · simp [flagH]
  · simp [flagC]
  · simp
  · rw [State.lane_respond, State.lane_writeLane_of_ne s (by simp)]
  · rw [State.lane_respond, State.lane_writeLane_of_ne s fun h => hq h.1]

/-- Settles O42: both commands are one access to `pc` and an answer. -/
theorem pcCommandsReadAndWritePc : Obligations.PcCommandsReadAndWritePc := by
  intro s v
  exact ⟨exec_readPc s, exec_writePc s v⟩

/-- Settles O43: both commands are one access to `sp` and an answer. -/
theorem spCommandsReadAndWriteSp : Obligations.SpCommandsReadAndWriteSp := by
  intro s v
  exact ⟨exec_readSp s, exec_writeSp s v⟩

end Sys2Proof.Machine
end

section
/-! The lifecycle (42_lifecycle.md): RESET, CONSTRUCT and the reset state. -/

namespace Sys2Proof.Machine

/-! ## RESET -/

theorem byteAt_resetBody_of_mem {e : Half × Byte} (h : e ∈ resetIoTable) (s : State) : (resetBody s).byteAt e.1 = e.2 := by
  rw [byteAt_resetBody, byteAt_replay_of_mem resetIoTable_high resetIoTable_distinct h]

theorem byteAt_resetBody_of_not_mem {x : Half} (h : ∀ e ∈ resetIoTable, e.1 ≠ x) (s : State) :
    (resetBody s).byteAt x = s.byteAt x := by
  rw [byteAt_resetBody, byteAt_replay_of_not_mem resetIoTable_high h]

/-- A state that differs from `s` in these five fields only differs from it, once it has answered, in them and the responses. -/
theorem State.respond_frame_of_eq {s u : State} {pc sp : Half} {lanes : Lanes} {mem : Memory}
    {diag : List (Severity × EventKind)}
    (h : u = { s with pc := pc, sp := sp, lanes := lanes, diag := diag, mem := mem }) (r : Response) :
    u.respond r =
      { s with pc := (u.respond r).pc, sp := (u.respond r).sp, lanes := (u.respond r).lanes, mem := (u.respond r).mem
               diag := diag, responses := s.responses ++ [r] } := by
  subst h
  rfl

/-- Settles O44: RESET sets the registers and replays a table of distinct addresses, each of which no other address reaches. -/
theorem resetRestoresThePostBootState : Obligations.ResetRestoresThePostBootState := by
  intro s hl
  have hlanes : ((resetBody s).respond .done).lanes = ⟨resetPair .af, resetPair .bc, resetPair .de, resetPair .hl⟩ := by
    rw [State.respond_lanes, resetBody_lanes]
  obtain ⟨haf, hbc, hde, hhl⟩ := pairs_of_reset_lanes hlanes
  refine ⟨_, exec_reset_of_ready hl, ?_, ?_, haf, hbc, hde, hhl, fun e he => ?_, fun x hx => ?_,
    State.respond_frame_of_eq (resetBody_frame s) .done⟩
  · rw [State.respond_pc, resetBody_pc, resetPc]
  · rw [State.respond_sp, resetBody_sp, resetSp]
  · rw [State.byteAt_respond, byteAt_resetBody_of_mem he]
  · rw [State.byteAt_respond, byteAt_resetBody_of_not_mem hx]

/-- On a Ready block that holds what RESET restores, RESET adds its two events, answers, and changes nothing else. -/
theorem exec_reset_of_restored {t : State} (hl : t.life = .ready) (hpc : t.pc = resetPc) (hsp : t.sp = resetSp)
    (hlanes : t.lanes = ⟨resetPair .af, resetPair .bc, resetPair .de, resetPair .hl⟩)
    (hmem : (replay resetIoTable t).mem = t.mem) :
    exec .reset t =
      .next { t with diag := t.diag ++ [(.info, .resetting), (.info, .finishedResetting)]
                     responses := t.responses ++ [.done] } := by
  rw [exec_reset_of_ready hl, resetBody_frame, hmem, ← hpc, ← hsp, ← hlanes]
  rfl

/-- Settles O45: the block after RESET holds what RESET restores, since a replay on top of itself leaves canonical memory. -/
theorem resetIsIdempotent : Obligations.ResetIsIdempotent := by
  intro s hl hwf
  refine ⟨_, exec_reset_of_ready hl, exec_reset_of_restored ?_ (by simp) (by simp) (by simp) ?_⟩
  · rw [State.respond_life, resetBody_life, hl]
  · have hmem : ((resetBody s).respond .done).mem = (replay resetIoTable s).mem := by
      rw [State.respond_mem, resetBody_mem]
    rw [replay_mem_congr resetIoTable hmem, replay_replay_mem resetIoTable hwf, hmem]

/-- Settles O46: with no controller RESET is fault entry and nothing else. -/
theorem resetWithNoControllerIsFatal : Obligations.ResetWithNoControllerIsFatal := by
  intro s hl
  exact exec_reset_of_unloaded hl

/-! ## CONSTRUCT -/

section
variable (img : List Byte) (s : State)

/-- The block that CONSTRUCT resets: allocated and checked for its size. -/
def checked : State := romSizeCheck img (allocated .noMBC img s)

theorem wf_checked : (checked img s).mem.wf := by
  rw [checked, romSizeCheck_mem, allocated_mem]
  exact wf_allocatedMemory .noMBC img

theorem checked_romDraw : (checked img s).romDraw = s.romDraw + 1 := by
  rw [checked, romSizeCheck_romDraw, allocated]

theorem checked_faulted : (checked img s).faulted = none := by
  rw [checked, romSizeCheck_faulted, allocated]

theorem checked_variant : (checked img s).variant = .noMBC := by
  rw [checked, romSizeCheck_variant, allocated]

theorem checked_diag :
    (checked img s).diag =
      if 32768 * 2 ^ (img.getD 0x148 0#8).toNat = img.length then [] else [(.warning, .romSizeMismatch)] := by
  rw [checked, romSizeCheck_diag]
  exact List.nil_append _

theorem cell_checked (k : Nat) :
    (checked img s).cell k =
      if k < 0x8000 then (img[k]?).getD (Config.romFill (checked img s).romDraw k) else 0x00#8 := by
  rw [checked_romDraw, ← cell_allocated .noMBC img s k]
  exact State.cell_congr (romSizeCheck_mem ..) (romSizeCheck_romDraw ..) k

theorem byteAt_checked_of_rom {a : Half} (ha : a.toNat < 0x8000) :
    (checked img s).byteAt a = (img[a.toNat]?).getD (Config.romFill (checked img s).romDraw a.toNat) := by
  have hhome : home a = some a.toNat := by rw [home_eq, if_neg (by omega), if_neg (by omega)]
  rw [State.byteAt_eq, hhome]
  dsimp only
  rw [cell_checked, if_pos ha]

theorem byteAt_checked_of_not_rom {a : Half} (ha : 0x8000 ≤ a.toNat) : (checked img s).byteAt a = 0x00#8 := by
  rw [State.byteAt_eq, home_eq]
  split_ifs <;> dsimp only <;> rw [cell_checked, if_neg (by omega)]

end

theorem State.byteAt_of_life (s : State) (l : Life) (a : Half) : ({ s with life := l } : State).byteAt a = s.byteAt a :=
  State.byteAt_congr (s := s) (t := { s with life := l }) rfl rfl a

/-- Settles O47: CONSTRUCT resets the checked block, whose ROM is the image's, whose other bytes are zero and whose events are
the size check's, and makes it Ready. -/
theorem constructBuildsReadyBlock : Obligations.ConstructBuildsReadyBlock := by
  intro s img hlen htype
  refine ⟨_, construct_image hlen htype s, rfl, ?_⟩
  rw [← checked]
  refine ⟨?_, ?_, ?_, fun a ha => ?_, fun e he => ?_, fun a ha hne => ?_, ?_⟩
  · rw [resetBody_faulted, checked_faulted]
  · rw [resetBody_variant, checked_variant]
  · dsimp only
    exact wf_resetBody (wf_checked img s)
  · rw [State.byteAt_of_life, byteAt_resetBody_of_low (by omega), byteAt_checked_of_rom img s ha, resetBody_romDraw]
  · rw [State.byteAt_of_life, byteAt_resetBody_of_mem he]
  · rw [State.byteAt_of_life, byteAt_resetBody_of_not_mem hne, byteAt_checked_of_not_rom img s ha]
  · have hpairs := pairs_of_reset_lanes (t := { resetBody (checked img s) with life := .ready }) (by simp)
    obtain ⟨haf, hbc, hde, hhl⟩ := hpairs
    refine ⟨?_, ?_, haf, hbc, hde, hhl, ?_⟩
    · rw [resetBody_pc, resetPc]
    · rw [resetBody_sp, resetSp]
    · rw [resetBody_diag, checked_diag]

/-- Settles O48: the tests of CONSTRUCT in their order, each failing one ending it. -/
theorem constructStopsInOrder : Obligations.ConstructStopsInOrder := by
  intro s
  refine ⟨rfl, fun img hlen => ?_, fun img t hlen ht hne => ?_⟩
  · simp only [construct, hlen, if_true]
  · have htype : img.getD cartTypeOffset 0x00#8 = t := by simp [cartTypeOffset, ht]
    simp only [construct, htype, variantSelect, hne, Nat.not_lt.2 hlen, if_false]

/-! ## The reset state -/

theorem State.cell_reset {k : Nat} (h : 0x8000 ≤ k) : State.reset.cell k = (resetIoValue k).getD 0x00#8 := by
  have hlist : State.reset.mem.find k = none := rfl
  rw [State.cell, hlist]
  simp only [unlistedByte, Nat.not_lt.2 h, if_false, Option.getD_some]

theorem find_key_of_mem {es : List (Half × Byte)} (hd : es.Pairwise (fun e f => e.1 ≠ f.1)) {e : Half × Byte} (h : e ∈ es) :
    es.find? (fun f => f.1.toNat == e.1.toNat) = some e := by
  induction es with
  | nil => cases h
  | cons f es ih =>
    obtain ⟨hf, hes⟩ := List.pairwise_cons.1 hd
    rcases List.mem_cons.1 h with rfl | h
    · simp
    · have hne : ¬ f.1.toNat = e.1.toNat := fun heq => hf e h (BitVec.eq_of_toNat_eq heq)
      simp only [List.find?_cons, beq_eq_false_iff_ne.2 hne, ih hes h]

theorem resetIoValue_of_mem {e : Half × Byte} (h : e ∈ resetIoTable) : resetIoValue e.1.toNat = some e.2 := by
  rw [resetIoValue, find_key_of_mem resetIoTable_distinct h, Option.map_some]

theorem resetIoValue_of_not_mem {a : Half} (h : ∀ e ∈ resetIoTable, e.1 ≠ a) : resetIoValue a.toNat = none := by
  rw [resetIoValue, Option.map_eq_none_iff, List.find?_eq_none]
  intro e he heq
  exact h e he (BitVec.eq_of_toNat_eq (beq_iff_eq.1 heq))

theorem resetIoValue_of_low {k : Nat} (h : k < 0xFF00) : resetIoValue k = none :=
  resetIoValue_eq_none (by omega) (by omega)

/-- Settles O49: the reset state lists no cell, so from 0x8000 up each address reads its table value or 0x00. -/
theorem resetStateHoldsThePostBootValues : Obligations.ResetStateHoldsThePostBootValues := by
  obtain ⟨haf, hbc, hde, hhl⟩ := pairs_of_reset_lanes (t := State.reset) rfl
  refine ⟨rfl, rfl, rfl, rfl, rfl, haf, hbc, hde, hhl, rfl, fun e he => ?_, fun a ha hne => ?_, rfl⟩
  · have hhigh := resetIoTable_high e he
    rw [State.byteAt_eq, home_of_high hhigh]
    dsimp only
    rw [State.cell_reset (by omega), resetIoValue_of_mem he, Option.getD_some]
  · rw [State.byteAt_eq, home_eq]
    split_ifs with hecho hunused <;> dsimp only
    · rw [State.cell_reset (by omega), resetIoValue_of_low (by omega), Option.getD_none]
    · rw [State.cell_reset ha, resetIoValue_of_not_mem hne, Option.getD_none]

end Sys2Proof.Machine
end

section
/-! Opcode metadata (43_opcode_metadata.md): LOOKUP, the limits of the table, and R112's check. -/

namespace Sys2Proof.Machine

/-- Settles O50: LOOKUP answers with the record and does nothing else. -/
theorem lookupRespondsTheRecord : Obligations.LookupRespondsTheRecord := by
  intro s op
  exact exec_lookup s op

theorem opcodeMeta_of_used {op : Byte} (h : op ∉ unusedOpcodes) :
    opcodeMeta op =
      { mnemonic := Config.metaMnemonic op
        length := (Config.metaLengthLessOne op).val + 1
        baseCycles := Config.metaBaseCycles op
        longCycles :=
          if op ∈ conditionalOpcodes then some (Config.metaBaseCycles op + Config.metaTakenExtra op) else none } :=
  if_neg h

theorem opcodeMeta_longCycles (op : Byte) :
    (opcodeMeta op).longCycles =
      if op ∈ conditionalOpcodes then some ((opcodeMeta op).baseCycles + Config.metaTakenExtra op) else none := by
  by_cases hu : op ∈ unusedOpcodes
  · rw [if_neg (not_conditional_of_unused op hu), opcodeMeta_of_unused hu]
    rfl
  · rw [opcodeMeta_of_used hu]

theorem opcodeMeta_length (op : Byte) : 1 ≤ (opcodeMeta op).length ∧ (opcodeMeta op).length ≤ 3 := by
  have hfin : ∀ n : Fin 3, 1 ≤ n.val + 1 ∧ n.val + 1 ≤ 3 := by decide
  by_cases hu : op ∈ unusedOpcodes
  · rw [opcodeMeta_of_unused hu]
    exact hfin Config.sentinelLengthLessOne
  · rw [opcodeMeta_of_used hu]
    exact hfin (Config.metaLengthLessOne op)

/-- Settles O51: a used opcode's record is built from a bounded length and, where conditional, long cycles of its base cycles
and more; an unused opcode carries the sentinel, which has none. -/
theorem opcodeTableKeepsItsLimits : Obligations.OpcodeTableKeepsItsLimits := by
  refine ⟨rfl, rfl, fun op => ⟨opcodeMeta_length op, ?_, fun n hn => ?_, opcodeMeta_of_unused⟩⟩
  · rw [opcodeMeta_longCycles]
    split_ifs with hc <;> simp [hc]
  · rw [opcodeMeta_longCycles] at hn
    split_ifs at hn
    cases hn
    exact Nat.le_add_right _ _

theorem r112CostsHold_iff (table : Byte → OpcodeRecord) :
    r112CostsHold table = true ↔
      ∀ row ∈ r112Rows, ∀ op ∈ row.1,
        (table op).length = row.2.1 ∧ (table op).baseCycles = row.2.2.1 ∧ (table op).longCycles = some row.2.2.2 := by
  simp only [r112CostsHold, List.all_eq_true, Bool.and_eq_true, beq_iff_eq, and_assoc]

theorem forall_mem_r112Rows (P : List Byte × Nat × Nat × Nat → Prop) :
    (∀ row ∈ r112Rows, P row) ↔
      P ([0x20#8, 0x28#8, 0x30#8, 0x38#8], 2, 8, 12) ∧ P ([0xC2#8, 0xCA#8, 0xD2#8, 0xDA#8], 3, 12, 16) ∧
      P ([0xC4#8, 0xCC#8, 0xD4#8, 0xDC#8], 3, 12, 24) ∧ P ([0xC0#8, 0xC8#8, 0xD0#8, 0xD8#8], 1, 8, 20) := by
  simp [r112Rows]

/-- Settles O52: each of the check's three parts is a test over a list, of its rows or of all opcodes. -/
theorem r112CheckMeansItsFacts : Obligations.R112CheckMeansItsFacts := by
  intro table sentinel
  simp only [passesR112, Bool.and_eq_true, r112CostsHold_iff, r112ConditionalsHold_iff, r112UnusedHold_iff, and_assoc]
  have hcond : ∀ op, ((table op).longCycles.isSome = conditionalOpcodes.contains op) ↔
      ((table op).longCycles.isSome = true ↔ op ∈ conditionalOpcodes) := by
    intro op
    rw [Bool.eq_iff_iff, List.contains_iff_mem]
  have hunused : ∀ op, ((table op == sentinel) = unusedOpcodes.contains op) ↔ (table op = sentinel ↔ op ∈ unusedOpcodes) := by
    intro op
    rw [Bool.eq_iff_iff, List.contains_iff_mem, beq_iff_eq]
  simp only [forall_mem_r112Rows, hcond, hunused, and_assoc]

end Sys2Proof.Machine
end
